-- ==== Sys2Proof/Word.lean ====
section
/-! DEFINITION. The two widths of the tsvm CORE (spec/00_scope.md R7, R10): a byte is 8 bits, a register 16. -/

namespace Sys2Proof

/-- A byte, 0..255, always unsigned (R10). -/
abbrev Byte := BitVec 8

/-- A 16-bit value, 0..65535, always unsigned (R10, R21). -/
abbrev Word := BitVec 16

end Sys2Proof
end

