-- ==== Sys2Proof/Config.lean ====
section
/-! DEFINITION. The parameters the spec leaves open (spec/00_scope.md R7 to R9): `MEM_LEN` and the three opcode
bytes. They are fixed when the core is built; the state carries them unchanged (log entry 1), so that every statement
about a state is a statement about every admissible parameter value. -/

namespace Sys2Proof

/-- The three opcode parameters of R7, each a byte. -/
structure Opcodes where
  /-- `OPC_MOV_LIT_R1` -/
  movLitR1 : Byte
  /-- `OPC_MOV_LIT_R2` -/
  movLitR2 : Byte
  /-- `OPC_ADD_REG_REG` -/
  addRegReg : Byte
  deriving DecidableEq, Repr

/-- The build parameters of R7. -/
structure Config where
  /-- `MEM_LEN`, the byte length of main memory: any natural number, 0 and 1 included (R9). -/
  memLen : Nat
  /-- `OPC_MOV_LIT_R1`, `OPC_MOV_LIT_R2`, `OPC_ADD_REG_REG` -/
  opcodes : Opcodes
  deriving DecidableEq, Repr

end Sys2Proof
end

