-- ==== Sys2Proof/Syntax.lean ====
section
/-! DEFINITION. The instructions of the tsvm CORE: one constructor per row of spec/opcode_table.json. -/

namespace Sys2Proof

/-- An instruction with its operands (spec/30_encoding.md R80, R81, R84). -/
inductive Instr where
  /-- `MOV_LIT_R1 imm`, format L16 (R130). -/
  | movLitR1 (imm : Word)
  /-- `MOV_LIT_R2 imm`, format L16 (R131). -/
  | movLitR2 (imm : Word)
  /-- `ADD_REG_REG ra, rb`, format RR (R140); the operands are raw index bytes, 0..255 (R83). -/
  | addRegReg (ra rb : Byte)
  /-- The `(unrecognized)` row, format OP: an opcode byte equal to none of the three parameters (R87, R107). -/
  | unrecognized (op : Byte)
  deriving DecidableEq, Repr

/-- What the decoder finds from the opcode byte alone (R85, R106), before any operand is fetched. -/
inductive OpcodeKind where
  | movLitR1
  | movLitR2
  | addRegReg
  | unrecognized
  deriving DecidableEq, Repr

end Sys2Proof
end

