-- ==== Sys2Proof/WellFormed.lean ====
section
/-! DEFINITION. What makes a configuration and an instruction well-formed. -/

namespace Sys2Proof

/-- The three opcode parameters are pairwise distinct (spec/00_scope.md R8). Nothing else is required of them. -/
abbrev Opcodes.Distinct (oc : Opcodes) : Prop :=
  oc.movLitR1 ≠ oc.movLitR2 ∧ oc.movLitR1 ≠ oc.addRegReg ∧ oc.movLitR2 ≠ oc.addRegReg

/-- A configuration is a tsvm core exactly when its opcodes are distinct; any `MEM_LEN` is admitted (R8, R9). -/
abbrev Config.WellFormed (cfg : Config) : Prop := cfg.opcodes.Distinct

/-- A byte is an unrecognized opcode when it equals none of the three parameters (spec/30_encoding.md R87). -/
abbrev Opcodes.Unrecognized (oc : Opcodes) (op : Byte) : Prop :=
  op ≠ oc.movLitR1 ∧ op ≠ oc.movLitR2 ∧ op ≠ oc.addRegReg

/-- Every literal and every index byte is a legal operand (R88); the only constraint is that the byte of the
`(unrecognized)` row is none of the three opcodes (R87). -/
abbrev Instr.WellFormed (oc : Opcodes) (i : Instr) : Prop :=
  match i with
  | .movLitR1 _ => True
  | .movLitR2 _ => True
  | .addRegReg _ _ => True
  | .unrecognized op => oc.Unrecognized op

end Sys2Proof
end

