-- ==== Sys2Proof/Decode.lean ====
section
/-! DEFINITION. The decoder, the encoder and the bit-field helpers (spec/30_encoding.md). The decoder is total on any
bytes: it rejects, by name, only a list of bytes that ends before the instruction does, since no byte value is an
illegal opcode and no operand value is illegal (R87, R88). -/

namespace Sys2Proof

/-- `be16(hi, lo)` = `hi * 256 + lo` (spec/00_scope.md R11, spec/20_memory.md R57): the first byte is the high one. -/
def be16 (hi lo : Byte) : Word := hi ++ lo

/-- `v[15:8]` -/
def hiByte (v : Word) : Byte := v.extractLsb' 8 8

/-- `v[7:0]` -/
def loByte (v : Word) : Byte := v.extractLsb' 0 8

/-- The default opcode bytes, `[from general knowledge, not in source]` (R84, D1, G1). PRESUMED: log entry 2. -/
def Opcodes.standard : Opcodes where
  movLitR1 := 0x10
  movLitR2 := 0x11
  addRegReg := 0x12

/-- The dispatch on the whole opcode byte, in the order spec/40_fetch_decode.md R106 writes it (R85). -/
def dispatch (oc : Opcodes) (op : Byte) : OpcodeKind :=
  if op = oc.movLitR1 then .movLitR1
  else if op = oc.movLitR2 then .movLitR2
  else if op = oc.addRegReg then .addRegReg
  else .unrecognized

/-- The length in bytes of an instruction, known from its opcode alone (R80, R84, R86). -/
def OpcodeKind.length : OpcodeKind → Nat
  | .movLitR1 => 3
  | .movLitR2 => 3
  | .addRegReg => 3
  | .unrecognized => 1

/-- The opcode row an instruction belongs to. -/
def Instr.kind : Instr → OpcodeKind
  | .movLitR1 _ => .movLitR1
  | .movLitR2 _ => .movLitR2
  | .addRegReg _ _ => .addRegReg
  | .unrecognized _ => .unrecognized

/-- The length in bytes of an instruction (R80). -/
def Instr.length (i : Instr) : Nat := i.kind.length

/-- Why a list of bytes holds no whole instruction. -/
inductive DecodeError where
  /-- There is no opcode byte. -/
  | noOpcode
  /-- The opcode's operand bytes run past the end of the list (R86). -/
  | missingOperands (op : Byte)
  deriving DecidableEq, Repr

/-- Read one instruction from the front of a list of bytes in address order (R81 to R84); also the bytes after it. -/
def decode (oc : Opcodes) : List Byte → Except DecodeError (Instr × List Byte)
  | [] => .error .noOpcode
  | op :: rest =>
    match dispatch oc op, rest with
    | .movLitR1, b1 :: b2 :: rest => .ok (.movLitR1 (be16 b1 b2), rest)
    | .movLitR2, b1 :: b2 :: rest => .ok (.movLitR2 (be16 b1 b2), rest)
    | .addRegReg, b1 :: b2 :: rest => .ok (.addRegReg b1 b2, rest)
    | .unrecognized, rest => .ok (.unrecognized op, rest)
    | _, _ => .error (.missingOperands op)

/-- The bytes of an instruction in address order, from the formats of R81. -/
def encode (oc : Opcodes) : Instr → List Byte
  | .movLitR1 imm => [oc.movLitR1, hiByte imm, loByte imm]
  | .movLitR2 imm => [oc.movLitR2, hiByte imm, loByte imm]
  | .addRegReg ra rb => [oc.addRegReg, ra, rb]
  | .unrecognized op => [op]

/-- Byte `k` in address order of an instruction given as a number whose bit 0 is the least significant bit of the
first byte; bits from `nbits` on are 0. -/
def tableByte (nbits w k : Nat) : Byte := BitVec.ofNat 8 ((w % 2 ^ nbits) / 256 ^ k)

/-- The bytes of such a number, up to the longest instruction (3 bytes, R80). -/
def tableBytes (nbits w : Nat) : List Byte := [tableByte nbits w 0, tableByte nbits w 1, tableByte nbits w 2]

/-- The instruction this decoder reads from a word of spec/opcode_table.json, under the default opcode bytes that the
table shows (log entry 2). -/
def decodeTableWord (nbits w : Nat) : Option Instr :=
  match decode Opcodes.standard (tableBytes nbits w) with
  | .ok (i, _) => some i
  | .error _ => none

end Sys2Proof
end

