-- ==== Sys2Proof/Machine/Build.lean ====
section
/-! DEFINITION. The parameter values with which `State.reset` is built. -/

namespace Sys2Proof

/-- `MEM_LEN` of the machine `State.reset` describes. DESIGN CHOICE (log entry 3): the spec leaves it open (R7, D10);
65536 bytes is the least length at which every `ip` value addresses a byte. -/
def Config.standardMemLen : Nat := 65536

/-- The parameters of the machine `State.reset` describes (log entries 2 and 3). -/
def Config.standard : Config where
  memLen := Config.standardMemLen
  opcodes := Opcodes.standard

end Sys2Proof
end

