-- ==== Sys2Proof/Machine/State.lean ====
section
/-! DEFINITION. The state of the tsvm CORE (spec/10_state.md), plain data, with the state after reset and the reasons a
step can stop. -/

namespace Sys2Proof.Machine

/-- The ten registers in their fixed order (R20). -/
inductive Reg where
  | ip
  | acc
  | r1
  | r2
  | r3
  | r4
  | r5
  | r6
  | r7
  | r8
  deriving DecidableEq, Repr

/-- The two Byte Stores (R22, R33, R34). -/
inductive StoreId where
  /-- `MEM`, main memory. -/
  | mem
  /-- `REGFILE`, the register file's backing store. -/
  | regfile
  deriving DecidableEq, Repr

/-- The width of a Byte Store access: 1 or 2 bytes (R32, R59). -/
inductive Width where
  | one
  | two
  deriving DecidableEq, Repr

/-- The error kinds of spec/60_exceptions.md R150. -/
inductive ErrorCode where
  | outOfBounds
  | unknownRegister
  | coreHalted
  | allocation
  deriving DecidableEq, Repr

/-- What `OutOfBounds` records: the store, the failing byte offset, the width of the access (R150, R151). -/
structure AccessInfo where
  store : StoreId
  offset : Nat
  width : Width
  deriving DecidableEq, Repr

/-- The latched record `{code, store, offset, width}` (R32). -/
structure FaultRecord extends AccessInfo where
  code : ErrorCode
  deriving DecidableEq, Repr

/-- The bytes of a Byte Store: (offset, byte) pairs, offsets strictly rising, no entry equal to what an unlisted offset
reads as (`Memory.unlisted`, 0). `Memory.wf` says the form holds (log entry 9). -/
abbrev Memory := List Host.Cell

/-- The state of the core. -/
structure State where
  /-- `MEM_LEN` and the opcode bytes: fixed for the core's life, written by nothing (R9, R35; log entry 1). -/
  cfg : Config
  /-- `MEM`: main memory's bytes (R33, R50). -/
  mem : Memory
  /-- `REGFILE`: the 20 bytes that hold the ten registers, `ip` among them (R20, R22, R26). -/
  regfile : Memory
  /-- The fault latch (R32, R156). -/
  halted : Bool
  /-- The latched record (R32, R156). -/
  fault : Option FaultRecord
  deriving DecidableEq, Repr

/-- The core at power-on with parameters `cfg`: every byte of both stores 0, the latch clear (R37 to R39, R180). -/
def State.powerOn (cfg : Config) : State where
  cfg := cfg
  mem := []
  regfile := []
  halted := false
  fault := none

/-- The machine right after power-on and reset, with the parameters of `Config.standard` (log entries 2 and 3). -/
def State.reset : State := State.powerOn Config.standard

/-- Why the machine stops. -/
inductive Fault where
  /-- Raised by `step` alone, when it is asked to run while the core is halted: a core command is then refused with
  `ERR(CoreHalted, fault)` and changes no state (R101, R157). Safe: the machine goes no further until a `RESET`
  (log entry 5). -/
  | coreHalted (record : Option FaultRecord)
  deriving DecidableEq, Repr

/-- Why something has no meaning. -/
inductive Refusal where
  /-- An instruction without a meaning, raised by a refused arm of `exec`; safe. No arm of this model raises it. -/
  | notModelled (mnemonic : String)
  /-- Raised by `powerOn` when two opcode parameters are equal: such a configuration is refused (R8); safe. -/
  | opcodesNotDistinct
  deriving DecidableEq, Repr

end Sys2Proof.Machine
end

