-- ==== Sys2Proof/Machine/Ops.lean ====
section
/-! DEFINITION. The named operations over memory and registers: the Byte Store accessors (spec/20_memory.md R50 to
R56), the registers (spec/10_state.md R20 to R23), the fault latch and its reset (spec/60_exceptions.md R155, R156;
spec/70_reset_and_hazards.md R181) and the fetch unit (spec/40_fetch_decode.md R102, R103). -/

namespace Sys2Proof.Machine

/-! ### The bytes of a store -/

/-- What an offset reads as that the list does not hold: 0, every byte's value at creation (R50). -/
def Memory.unlisted : Byte := 0

/-- The byte at an offset. -/
def Memory.read : Memory → Nat → Byte
  | [], _ => Memory.unlisted
  | c :: m, a => if c.1 = a then c.2 else Memory.read m a

/-- The list without its entry for `a`. -/
def Memory.erase (m : Memory) (a : Nat) : Memory := m.filter fun c => c.1 ≠ a

/-- Place an entry before the first higher offset. -/
def Memory.insert : Memory → Nat → Byte → Memory
  | [], a, v => [(a, v)]
  | c :: m, a, v => if a < c.1 then (a, v) :: c :: m else c :: Memory.insert m a v

/-- Set the byte at an offset, keeping the canonical form. -/
def Memory.write (m : Memory) (a : Nat) (v : Byte) : Memory :=
  if v = Memory.unlisted then Memory.erase m a else Memory.insert (Memory.erase m a) a v

/-- The canonical form of the bytes of a store of length `len`: offsets strictly rising, inside the store, and no entry
equal to what an unlisted offset reads as. -/
abbrev Memory.wf (len : Nat) (m : Memory) : Prop :=
  m.Pairwise (fun c d => c.1 < d.1) ∧ ∀ c ∈ m, c.1 < len ∧ c.2 ≠ Memory.unlisted

/-! ### The Byte Store accessors, the same for both stores (R50) -/

/-- `REGFILE_LEN` (R7, R22). -/
def regfileLen : Nat := 20

/-- The length of a store, fixed for the core's life (R50). -/
def State.len (s : State) : StoreId → Nat
  | .mem => s.cfg.memLen
  | .regfile => regfileLen

/-- The bytes of a store. -/
def State.cells (s : State) : StoreId → Memory
  | .mem => s.mem
  | .regfile => s.regfile

/-- The state with the bytes of one store replaced. -/
def State.setCells (s : State) (st : StoreId) (m : Memory) : State :=
  match st with
  | .mem => { s with mem := m }
  | .regfile => { s with regfile := m }

/-- `S.bytes[off]` -/
def State.byteAt (s : State) (st : StoreId) (off : Nat) : Byte := (s.cells st).read off

/-- `S.bytes[off] <- v` -/
def State.putByte (s : State) (st : StoreId) (off : Nat) (v : Byte) : State :=
  s.setCells st ((s.cells st).write off v)

/-- The 16-bit value at bytes `off` and `off + 1`, big-endian (R53, R57). -/
def State.wordAt (s : State) (st : StoreId) (off : Nat) : Word := be16 (s.byteAt st off) (s.byteAt st (off + 1))

/-- Write `v mod 2^16` at bytes `off` and `off + 1`, big-endian (R54, R57). -/
def State.putWord (s : State) (st : StoreId) (off v : Nat) : State :=
  (s.putByte st off (hiByte (BitVec.ofNat 16 v))).putByte st (off + 1) (loByte (BitVec.ofNat 16 v))

/-- `readU8` (R51). -/
def State.readU8 (s : State) (st : StoreId) (off : Nat) : Except AccessInfo Byte :=
  if off < s.len st then .ok (s.byteAt st off) else .error ⟨st, off, .one⟩

/-- `writeU8` (R52). -/
def State.writeU8 (s : State) (st : StoreId) (off : Nat) (v : Byte) : Except AccessInfo State :=
  if off < s.len st then .ok (s.putByte st off v) else .error ⟨st, off, .one⟩

/-- `readU16` (R53): the two bytes are `off` and `off + 1`, with no wrap at any width. -/
def State.readU16 (s : State) (st : StoreId) (off : Nat) : Except AccessInfo Word :=
  if off + 2 ≤ s.len st then .ok (s.wordAt st off) else .error ⟨st, off, .two⟩

/-- `writeU16` (R54): the bounds are checked before either byte is written; a wider value is cut mod 2^16. -/
def State.writeU16 (s : State) (st : StoreId) (off v : Nat) : Except AccessInfo State :=
  if off + 2 ≤ s.len st then .ok (s.putWord st off v) else .error ⟨st, off, .two⟩

/-! ### The registers -/

/-- The fixed order of the registers (R20). -/
def Reg.all : List Reg := [.ip, .acc, .r1, .r2, .r3, .r4, .r5, .r6, .r7, .r8]

/-- A register's index (R20). -/
def Reg.index : Reg → Nat
  | .ip => 0
  | .acc => 1
  | .r1 => 2
  | .r2 => 3
  | .r3 => 4
  | .r4 => 5
  | .r5 => 6
  | .r6 => 7
  | .r7 => 8
  | .r8 => 9

/-- The register of an index or host select value; none from 10 on (R20, R40). -/
def Reg.ofIndex : Nat → Option Reg
  | 0 => some .ip
  | 1 => some .acc
  | 2 => some .r1
  | 3 => some .r2
  | 4 => some .r3
  | 5 => some .r4
  | 6 => some .r5
  | 7 => some .r6
  | 8 => some .r7
  | 9 => some .r8
  | _ => none

/-- A register's name (R20). -/
def Reg.name : Reg → String
  | .ip => "ip"
  | .acc => "acc"
  | .r1 => "r1"
  | .r2 => "r2"
  | .r3 => "r3"
  | .r4 => "r4"
  | .r5 => "r5"
  | .r6 => "r6"
  | .r7 => "r7"
  | .r8 => "r8"

/-- A register's register-file byte offset: its index times 2 (R20). -/
def Reg.offset (r : Reg) : Nat := 2 * r.index

/-- `x[name]`, the read by name: `RegFileRead(2*i)` (R11, R22, R23). A named offset is 0..18, so the bounds check of
R53 always passes (R151; `readU16_named` in Laws/Ops.lean) and the read is total. -/
def State.getReg (s : State) (r : Reg) : Word := s.wordAt .regfile r.offset

/-- `x[name] <- v`, the write by name: `RegFileWrite(2*i, v)`, which stores `v mod 2^16` (R11, R22, R23). Its bounds
check always passes too (`writeU16_named`). -/
def State.setReg (s : State) (r : Reg) (v : Nat) : State := s.putWord .regfile r.offset v

/-! ### Errors: the fault latch, and the reset that clears it -/

/-- An error raised inside a core command: what the command wrote before stays, and the core latches
`{code: OutOfBounds, store, offset, width}` and halts (R155, R156). No register is saved, no mode changes and no
handler is entered (R161). -/
def State.takeError (s : State) (e : AccessInfo) : State :=
  { s with halted := true, fault := some { e with code := .outOfBounds } }

/-- `for i in 0..9: x[i] <- 0` (R181). -/
def State.clearRegs (s : State) : State := Reg.all.foldl (fun t r => t.setReg r 0) s

/-- `RESET`: every register 0, in order, the latch cleared, main memory unchanged (R181). The only way out of the
halted state (R162). -/
def State.resetCore (s : State) : State :=
  { s.clearRegs with halted := false, fault := none }

/-- The build of a core: refused when two opcodes are equal (R8), else the power-on state (R180). -/
def powerOn (cfg : Config) : Host.Outcome State Fault Refusal :=
  if cfg.WellFormed then .next (State.powerOn cfg) else .refused .opcodesNotDistinct

/-! ### The fetch unit -/

/-- The result of a sequence of accesses inside one command: a value, or the error that ended it, each with the state
that the writes completed so far leave (R155, R158). -/
inductive Access (α : Type) where
  | ok (v : α) (s : State)
  | error (e : AccessInfo) (s : State)
  deriving DecidableEq, Repr

/-- Run the next access when the first succeeded; an error ends the command there (R11, R155). -/
def Access.bind {α β : Type} (x : Access α) (f : α → State → Access β) : Access β :=
  match x with
  | .ok v s => f v s
  | .error e s => .error e s

/-- Change the value, not the state. -/
def Access.map {α β : Type} (f : α → β) (x : Access α) : Access β := x.bind fun v s => .ok (f v) s

/-- `fetch8()`: the byte at `ip`, then `ip` advanced by 1 (R102); a failing read leaves `ip` (R104). -/
def fetch8 (s : State) : Access Byte :=
  let a := (s.getReg .ip).toNat
  match s.readU8 .mem a with
  | .ok b => .ok b (s.setReg .ip (a + 1))
  | .error e => .error e s

/-- `fetch16()`: the big-endian 16-bit value at `ip`, then `ip` advanced by 2 (R103). -/
def fetch16 (s : State) : Access Word :=
  let a := (s.getReg .ip).toNat
  match s.readU16 .mem a with
  | .ok v => .ok v (s.setReg .ip (a + 2))
  | .error e => .error e s

end Sys2Proof.Machine
end

