-- ==== Sys2Proof/Machine/Operands.lean ====
section
/-! DEFINITION. The operand forms (spec/40_fetch_decode.md R113): the 16-bit literal, the two index bytes, and the
positional register read. -/

namespace Sys2Proof.Machine

/-- The operand fetches a handler makes after dispatch (R86, R106; R130, R131, R140): one `fetch16` for a literal, two
`fetch8`s for the index bytes, none for an unrecognized opcode. Each handler makes all of them before it touches any
other register (log entry 4), so the instruction with its operands is known here. -/
def fetchOperands (op : Byte) (s : State) : Access Instr :=
  match dispatch s.cfg.opcodes op with
  | .movLitR1 => (fetch16 s).map Instr.movLitR1
  | .movLitR2 => (fetch16 s).map Instr.movLitR2
  | .addRegReg => (fetch8 s).bind fun ra s1 => (fetch8 s1).map fun rb => Instr.addRegReg ra rb
  | .unrecognized => .ok (.unrecognized op) s

/-- `RegFileRead(2 * i)`, the positional read of `ADD_REG_REG`: it bypasses the name mapping, and an index of 10 or
more is an offset outside the register file (R141, C6). `2 * i` is not truncated. -/
def readIndexed (s : State) (i : Byte) : Except AccessInfo Word := s.readU16 .regfile (2 * i.toNat)

/-- The main-memory offsets of the operand bytes of an instruction whose opcode has been fetched, with `ip` = `ip0`: a
`fetch16` reads two consecutive offsets with no wrap (R103), two `fetch8`s follow `ip`, which wraps (R104, R30). -/
def operandOffsets (k : OpcodeKind) (ip0 : Nat) : List Nat :=
  match k with
  | .movLitR1 => [ip0, ip0 + 1]
  | .movLitR2 => [ip0, ip0 + 1]
  | .addRegReg => [ip0, (ip0 + 1) % 65536]
  | .unrecognized => []

/-- The main-memory offsets one `STEP` at this state reads, in order: the opcode's at `ip`, then its operands'. -/
def State.instrOffsets (s : State) : List Nat :=
  let a := (s.getReg .ip).toNat
  a :: operandOffsets (dispatch s.cfg.opcodes (s.byteAt .mem a)) ((a + 1) % 65536)

end Sys2Proof.Machine
end

