-- ==== Sys2Proof/Machine/Flags.lean ====
section
/-! DEFINITION. The core has no flags or condition codes (spec/10_state.md R31), so this file holds no flag
computation: only the sum of the one ALU operation (spec/42_alu.md R142), whose carry out of bit 15 nothing records. -/

namespace Sys2Proof.Machine

/-- The mathematical sum of two unsigned 16-bit values, 0..131070; the 16-bit register write cuts it mod 2^16
(R142, C3). -/
def aluSum (a b : Word) : Nat := a.toNat + b.toNat

end Sys2Proof.Machine
end

