-- ==== Sys2Proof/Machine/Alu.lean ====
section
/-! DEFINITION. The ALU instruction (spec/42_alu.md). Its meaning starts after both index fetches (log entry 4). -/

namespace Sys2Proof.Machine

/-- The read at `ra`, then the read at `rb`, then `acc` := the sum mod 2^16; the first failing read raises its error
and leaves `acc` (R140 to R142, D4). -/
def execAddRegReg (ra rb : Byte) (s : State) : Host.Outcome State Fault Refusal :=
  match readIndexed s ra with
  | .error e => .next (s.takeError e)
  | .ok va =>
    match readIndexed s rb with
    | .error e => .next (s.takeError e)
    | .ok vb => .next (s.setReg .acc (aluSum va vb))

end Sys2Proof.Machine
end

