-- ==== Sys2Proof/Machine/MovLit.lean ====
section
/-! DEFINITION. The literal moves (spec/41_mov_lit.md). Each meaning starts after its operand fetch (log entry 4). -/

namespace Sys2Proof.Machine

/-- `x['r1'] <- lit`, by symbolic name (R130, R132). -/
def execMovLitR1 (imm : Word) (s : State) : Host.Outcome State Fault Refusal := .next (s.setReg .r1 imm.toNat)

/-- `x['r2'] <- lit`, by symbolic name (R131, R132). -/
def execMovLitR2 (imm : Word) (s : State) : Host.Outcome State Fault Refusal := .next (s.setReg .r2 imm.toNat)

end Sys2Proof.Machine
end

