-- ==== Sys2Proof/Machine/Unrecognized.lean ====
section
/-! DEFINITION. The unrecognized opcodes (spec/40_fetch_decode.md R107). -/

namespace Sys2Proof.Machine

/-- A silent no-op: "mutates no register and no memory, and does not fail" (R107, R154, D17). The `ip` advance under
`STEP` is the opcode fetch's. -/
def execUnrecognized (_op : Byte) (s : State) : Host.Outcome State Fault Refusal := .next s

end Sys2Proof.Machine
end

