-- ==== Sys2Proof/Machine/Dispatch.lean ====
section
/-! DEFINITION. One arm per constructor of Instr: what the dispatched handler does once its operands are fetched
(spec/40_fetch_decode.md R106). -/

namespace Sys2Proof.Machine

def exec (i : Instr) (s : State) : Host.Outcome State Fault Refusal :=
  match i with
  | .movLitR1 imm => Sys2Proof.Machine.execMovLitR1 imm s
  | .movLitR2 imm => Sys2Proof.Machine.execMovLitR2 imm s
  | .addRegReg ra rb => Sys2Proof.Machine.execAddRegReg ra rb s
  | .unrecognized op => Sys2Proof.Machine.execUnrecognized op s

end Sys2Proof.Machine
end

