-- ==== Sys2Proof/Machine/Execute.lean ====
section
/-! DEFINITION. The execution of one opcode and the `STEP` sequence (spec/40_fetch_decode.md R101, R105, R106). -/

namespace Sys2Proof.Machine

/-- `execute(op)`: dispatch on the opcode, let the handler fetch its operands at `ip`, then run it; an error in a fetch
ends the command and latches (R106, R110, R155, R156). -/
def executeOpcode (op : Byte) (s : State) : Host.Outcome State Fault Refusal :=
  match fetchOperands op s with
  | .ok i t => exec i t
  | .error e t => .next (t.takeError e)

/-- `STEP`: refused while halted (R101); else fetch the opcode at `ip` and execute it (R105). -/
def coreStep (s : State) : Host.Outcome State Fault Refusal :=
  if s.halted then .fault (.coreHalted s.fault)
  else
    match fetch8 s with
    | .ok op t => executeOpcode op t
    | .error e t => .next (t.takeError e)

/-- Write a list of bytes at a list of main-memory offsets, with no bounds check. -/
def State.putBytes (s : State) : List (Nat × Byte) → State
  | [] => s
  | (a, b) :: rest => (s.putByte .mem a b).putBytes rest

/-- The state with `MEM_LEN` at least `n` and the same bytes. -/
def State.growMem (s : State) (n : Nat) : State := { s with cfg := { s.cfg with memLen := max s.cfg.memLen n } }

/-- The offsets at which a step at this state reads an instruction of up to three bytes whose opcode is `op`: as
`State.instrOffsets`, and the two offsets after a one-byte instruction's. -/
def State.placeOffsets (s : State) (op : Byte) : List Nat :=
  let a := (s.getReg .ip).toNat
  match dispatch s.cfg.opcodes op with
  | .unrecognized => [a, (a + 1) % 65536, (a + 2) % 65536]
  | k => a :: operandOffsets k ((a + 1) % 65536)

/-- The loader behind `State.withFetchWord`: the bytes of a table word where the next step fetches them, `MEM_LEN`
raised if they would not fit, and the latch clear, so that the next step runs them (log entry 10). -/
def State.placeWord (s : State) (nbits w : Nat) : State :=
  let offsets := s.placeOffsets (tableByte nbits w 0)
  let t := (s.growMem (offsets.foldl (fun n a => max n (a + 1)) 0)).putBytes (offsets.zip (tableBytes nbits w))
  { t with halted := false, fault := none }

end Sys2Proof.Machine
end

