-- ==== Sys2Proof/Machine/Step.lean ====
section
/-! DEFINITION. The step of the machine: the host command `STEP` (spec/40_fetch_decode.md R105). -/

namespace Sys2Proof.Machine

/-- One `STEP`. The body is `coreStep` (Machine/Execute.lean). -/
def step (s : State) : Host.Outcome State Fault Refusal := coreStep s

/-- The state with a table word placed where the next step fetches. The body is `State.placeWord`. -/
def State.withFetchWord (s : State) (nbits w : Nat) : State := s.placeWord nbits w

end Sys2Proof.Machine
end

