-- ==== Sys2Proof/Machine/Command.lean ====
section
/-! DEFINITION. The host's command interface (spec/40_fetch_decode.md R100): every command, what it answers and what it
leaves. `perform .step` is `step` with its response. -/

namespace Sys2Proof.Machine

/-- The commands of R100. Register selects, 16-bit values and addresses are naturals, as the ports take them (R40, R41,
R63, R64, D7, D12). -/
inductive Command where
  | step
  | exec (op : Byte)
  | fetch8
  | fetch16
  | getReg (sel : Nat)
  | setReg (sel v : Nat)
  | memRead8 (addr : Nat)
  | memRead16 (addr : Nat)
  | memWrite8 (addr : Nat) (v : Byte)
  | memWrite16 (addr v : Nat)
  | debug
  | reset
  deriving DecidableEq, Repr

/-- The kinds of R100's table: core commands, host-port commands, reset. -/
inductive CommandKind where
  | core
  | hostPort
  | reset
  deriving DecidableEq, Repr

/-- The kind column of R100. -/
def Command.kind : Command → CommandKind
  | .step => .core
  | .exec _ => .core
  | .fetch8 => .core
  | .fetch16 => .core
  | .getReg _ => .hostPort
  | .setReg _ _ => .hostPort
  | .memRead8 _ => .hostPort
  | .memRead16 _ => .hostPort
  | .memWrite8 _ _ => .hostPort
  | .memWrite16 _ _ => .hostPort
  | .debug => .hostPort
  | .reset => .reset

/-- An error as a response carries it (spec/60_exceptions.md R150). -/
inductive Error where
  | outOfBounds (info : AccessInfo)
  | unknownRegister (sel : Nat)
  | coreHalted (record : Option FaultRecord)
  /-- Belongs to store creation, before the core exists; no command answers it (R153). -/
  | allocation
  deriving DecidableEq, Repr

/-- The kind of an error (R150). -/
def Error.code : Error → ErrorCode
  | .outOfBounds _ => .outOfBounds
  | .unknownRegister _ => .unknownRegister
  | .coreHalted _ => .coreHalted
  | .allocation => .allocation

/-- The numeric codes of R150. -/
def ErrorCode.number : ErrorCode → Nat
  | .outOfBounds => 1
  | .unknownRegister => 2
  | .coreHalted => 3
  | .allocation => 4

/-- A response: `OK`, `OK(value)` or `ERR(code, info)` (R100, R150). -/
inductive Response where
  | ok
  | okByte (b : Byte)
  | okWord (v : Word)
  /-- `DEBUG`'s ten (register, value) pairs (R165). -/
  | okRegs (pairs : List (Reg × Word))
  | err (e : Error)
  deriving DecidableEq, Repr

/-- A command always completes, so this is a `next` with its response (`Obligations.EveryCommandIsAnswered`); the type
keeps room for a refusal of `exec`, which no instruction of this model makes. -/
abbrev Reply := Host.Outcome (State × Response) Fault Refusal

/-- The response of a core command that ended in `t`: the error it latched, else `OK` (R105, R156). -/
def State.endResponse (t : State) : Response :=
  match t.halted, t.fault with
  | true, some r => .err (.outOfBounds r.toAccessInfo)
  | _, _ => .ok

/-- The reply to a core command that executed an opcode. -/
def replyOutcome (s : State) : Host.Outcome State Fault Refusal → Reply
  | .next t => .next (t, t.endResponse)
  | .fault (.coreHalted r) => .next (s, .err (.coreHalted r))
  | .refused r => .refused r

/-- The reply to a core command that fetched a value: an error latches (R109, R110, R156). -/
def replyAccess {α : Type} (value : α → Response) : Access α → Reply
  | .ok v t => .next (t, value v)
  | .error e t => .next (t.takeError e, .err (.outOfBounds e))

/-- A core command is refused while the core is halted, and changes no state (R101, R157). -/
def whenRunning (s : State) (reply : Reply) : Reply :=
  if s.halted then .next (s, .err (.coreHalted s.fault)) else reply

/-- A host-port read: no state changes, an error is only answered (R40, R63, R156). -/
def replyRead {α : Type} (s : State) (value : α → Response) : Except AccessInfo α → Reply
  | .ok v => .next (s, value v)
  | .error e => .next (s, .err (.outOfBounds e))

/-- A host-port write: an error is only answered and changes nothing (R41, R63, R156). -/
def replyWrite (s : State) : Except AccessInfo State → Reply
  | .ok t => .next (t, .ok)
  | .error e => .next (s, .err (.outOfBounds e))

/-- `GETREG(sel)` (R40). -/
def performGetReg (sel : Nat) (s : State) : Reply :=
  match Reg.ofIndex sel with
  | some r => .next (s, .okWord (s.getReg r))
  | none => .next (s, .err (.unknownRegister sel))

/-- `SETREG(sel, v)` (R41). -/
def performSetReg (sel v : Nat) (s : State) : Reply :=
  match Reg.ofIndex sel with
  | some r => .next (s.setReg r v, .ok)
  | none => .next (s, .err (.unknownRegister sel))

/-- One host command: the state it leaves and its response (R100). -/
def perform (c : Command) (s : State) : Reply :=
  match c with
  | .step => replyOutcome s (step s)
  | .exec op => whenRunning s (replyOutcome s (executeOpcode op s))
  | .fetch8 => whenRunning s (replyAccess .okByte (fetch8 s))
  | .fetch16 => whenRunning s (replyAccess .okWord (fetch16 s))
  | .getReg sel => performGetReg sel s
  | .setReg sel v => performSetReg sel v s
  | .memRead8 addr => replyRead s .okByte (s.readU8 .mem addr)
  | .memRead16 addr => replyRead s .okWord (s.readU16 .mem addr)
  | .memWrite8 addr v => replyWrite s (s.writeU8 .mem addr v)
  | .memWrite16 addr v => replyWrite s (s.writeU16 .mem addr v)
  | .debug => .next (s, .okRegs (Reg.all.map fun r => (r, s.getReg r)))
  | .reset => .next (s.resetCore, .ok)

/-- A run: the commands of a host, in order, with their responses (R184, D16). -/
def performAll : List Command → State → Host.Outcome (State × List Response) Fault Refusal
  | [], s => .next (s, [])
  | c :: cs, s =>
    match perform c s with
    | .next (t, r) =>
      match performAll cs t with
      | .next (u, rs) => .next (u, r :: rs)
      | .fault f => .fault f
      | .refused x => .refused x
    | .fault f => .fault f
    | .refused x => .refused x

end Sys2Proof.Machine
end

