-- ==== Sys2Proof/Machine/Assembler.lean ====
section
/-! DEFINITION. The assembler syntax the spec fixes (spec/30_encoding.md R89, D11) and the loading of an assembled
program through the host's memory port (spec/70_reset_and_hazards.md R183). It carries no semantics of its own: it says
which bytes a statement stands for. -/

namespace Sys2Proof.Machine

/-- An operand of `ADD_REG_REG`: a number 0..255, or a register name standing for 0..9 (R89). -/
inductive AsmIndex where
  | number (b : Byte)
  | name (r : Reg)
  deriving DecidableEq, Repr

/-- The statements of R89. There are no pseudo-instructions (R90). -/
inductive AsmStmt where
  | movLitR1 (imm : Word)
  | movLitR2 (imm : Word)
  | addRegReg (ra rb : AsmIndex)
  /-- `.byte b, ...` -/
  | bytes (bs : List Byte)
  /-- `.org addr` -/
  | org (addr : Nat)
  deriving DecidableEq, Repr

/-- The index byte an operand stands for (R89). -/
def AsmIndex.byte : AsmIndex → Byte
  | .number b => b
  | .name r => BitVec.ofNat 8 r.index

/-- The bytes a statement places (R89, second column). -/
def AsmStmt.bytesOf (oc : Opcodes) : AsmStmt → List Byte
  | .movLitR1 imm => encode oc (.movLitR1 imm)
  | .movLitR2 imm => encode oc (.movLitR2 imm)
  | .addRegReg ra rb => encode oc (.addRegReg ra.byte rb.byte)
  | .bytes bs => bs
  | .org _ => []

/-- The offset at which the next byte is placed after a statement that began at `at` (R89). -/
def AsmStmt.next (oc : Opcodes) (pos : Nat) : AsmStmt → Nat
  | .org addr => addr
  | st => pos + (st.bytesOf oc).length

/-- Bytes at rising main-memory offsets. -/
def placeAt (pos : Nat) : List Byte → List Host.Cell
  | [] => []
  | b :: bs => (pos, b) :: placeAt (pos + 1) bs

/-- The bytes of a program with their offsets, in the order of its statements; the first byte is placed at `pos`
(offset 0 for a program with no `.org`: log entry 12). -/
def assemble (oc : Opcodes) (pos : Nat) : List AsmStmt → List Host.Cell
  | [] => []
  | st :: rest => placeAt pos (st.bytesOf oc) ++ assemble oc (st.next oc pos) rest

/-- The host commands that load those bytes (R183 step 1). -/
def loadCommands (image : List Host.Cell) : List Command := image.map fun c => .memWrite8 c.1 c.2

/-! ### The text of a program: one statement a line, `;` starts a comment, numbers hexadecimal with `0x` or decimal
(R89). What R89 leaves open of the text is log entry 12. -/

/-- A word or a comma of a line. -/
inductive AsmToken where
  | word (w : List Char)
  | comma
  deriving DecidableEq, Repr

/-- The word read so far (its characters reversed), if there is one. -/
def flushWord (acc : List Char) : List AsmToken := if acc = [] then [] else [.word acc.reverse]

/-- The tokens of a line without its comment. -/
def tokensOf : List Char → List Char → List AsmToken
  | [], acc => flushWord acc
  | c :: cs, acc =>
    if c = ';' then flushWord acc
    else if c = ' ' ∨ c = '\t' ∨ c = '\r' then flushWord acc ++ tokensOf cs []
    else if c = ',' then flushWord acc ++ .comma :: tokensOf cs []
    else tokensOf cs (c :: acc)

/-- The lines of a text; `acc` is the current line reversed. -/
def linesOf : List Char → List Char → List (List Char)
  | [], acc => [acc.reverse]
  | c :: cs, acc => if c = '\n' then acc.reverse :: linesOf cs [] else linesOf cs (c :: acc)

/-- A digit's value below `base`. -/
def digitOf (base : Nat) (c : Char) : Option Nat :=
  let n := c.toNat
  let v := if 48 ≤ n ∧ n ≤ 57 then n - 48 else if 97 ≤ n ∧ n ≤ 102 then n - 87 else if 65 ≤ n ∧ n ≤ 70 then n - 55 else base
  if v < base then some v else none

/-- The value of a list of digits, after those that gave `acc`. -/
def digitsOf (base acc : Nat) : List Char → Option Nat
  | [] => some acc
  | c :: cs => (digitOf base c).bind fun d => digitsOf base (acc * base + d) cs

/-- A number (R89). -/
def numberOf : List Char → Option Nat
  | [] => none
  | ['0', 'x'] => none
  | '0' :: 'x' :: ds => digitsOf 16 0 ds
  | ds => digitsOf 10 0 ds

/-- A number 0..255. -/
def byteOf (w : List Char) : Option Byte :=
  (numberOf w).bind fun n => if n < 256 then some (BitVec.ofNat 8 n) else none

/-- A literal 0..65535. -/
def literalOf (w : List Char) : Option Word :=
  (numberOf w).bind fun n => if n < 65536 then some (BitVec.ofNat 16 n) else none

/-- A register name or an index number. -/
def indexOf (w : List Char) : Option AsmIndex :=
  match Reg.all.find? fun r => decide (r.name.toList = w) with
  | some r => some (.name r)
  | none => (byteOf w).map AsmIndex.number

/-- The numbers of a `.byte` statement, with commas between them. -/
def byteListOf : List AsmToken → Option (List Byte)
  | [.word w] => (byteOf w).map fun b => [b]
  | .word w :: .comma :: rest => (byteOf w).bind fun b => (byteListOf rest).map fun bs => b :: bs
  | _ => none

/-- The statement of a line: none when the line is empty, an error when it is no statement of R89. -/
def statementOf : List AsmToken → Option (List AsmStmt)
  | [] => some []
  | .word m :: operands =>
    if m = ".byte".toList then (byteListOf operands).map fun bs => [.bytes bs]
    else
      match operands with
      | [.word x] =>
        if m = "MOV_LIT_R1".toList then (literalOf x).map fun v => [.movLitR1 v]
        else if m = "MOV_LIT_R2".toList then (literalOf x).map fun v => [.movLitR2 v]
        else if m = ".org".toList then (numberOf x).map fun a => [.org a]
        else none
      | [.word x, .comma, .word y] =>
        if m = "ADD_REG_REG".toList then
          (indexOf x).bind fun a => (indexOf y).map fun b => [.addRegReg a b]
        else none
      | _ => none
  | _ => none

/-- The statements of a list of lines. -/
def statementsOf : List (List Char) → Option (List AsmStmt)
  | [] => some []
  | l :: ls => (statementOf (tokensOf l [])).bind fun st => (statementsOf ls).map fun rest => st ++ rest

/-- The statements of a program's text; none when a line is no statement of R89. -/
def parseAssembly (text : String) : Option (List AsmStmt) := statementsOf (linesOf text.toList [])

end Sys2Proof.Machine
end

