-- ==== Sys2Proof/Safety.lean ====
section
/-! DEFINITION. What claims about the machine are stated in: the invariant of reachable states, frames, safe runs. -/

namespace Sys2Proof.Machine

/-- A width in bytes (spec/10_state.md R32). -/
def Width.bytes : Width → Nat
  | .one => 1
  | .two => 2

/-- A latched record is that of an access outside its store (R32, R151, R156). -/
def FaultRecord.Genuine (s : State) (r : FaultRecord) : Prop :=
  r.code = .outOfBounds ∧ s.len r.store < r.offset + r.width.bytes

/-- The invariant of the machine: the opcodes are distinct (R8), both stores are in canonical form and inside their
length (R50), the latch and its record agree, and the record is that of an access out of range (R32, R156). -/
structure State.Inv (s : State) : Prop where
  opcodes : s.cfg.WellFormed
  mem : Memory.wf (s.len .mem) s.mem
  regfile : Memory.wf (s.len .regfile) s.regfile
  latch : s.halted = s.fault.isSome
  record : ∀ r, s.fault = some r → r.Genuine s

/-- Every register but those listed holds in `t` what it held in `s`. -/
def SameRegsExcept (rs : List Reg) (s t : State) : Prop := ∀ r, r ∉ rs → t.getReg r = s.getReg r

/-- Every byte of main memory reads in `t` as in `s`. -/
def SameMemory (s t : State) : Prop := ∀ a, t.byteAt .mem a = s.byteAt .mem a

/-- The fault latch and its record are unchanged. -/
def SameLatch (s t : State) : Prop := t.halted = s.halted ∧ t.fault = s.fault

/-- The core has latched this error and halted (R156). -/
def Latched (t : State) (e : AccessInfo) : Prop := t.halted = true ∧ t.fault = some { e with code := .outOfBounds }

/-- Everything but the listed registers and the latch is unchanged. -/
def OnlyRegsAndLatch (rs : List Reg) (s t : State) : Prop := t.cfg = s.cfg ∧ SameMemory s t ∧ SameRegsExcept rs s t

/-- Everything but the listed registers is unchanged. -/
def OnlyRegs (rs : List Reg) (s t : State) : Prop := OnlyRegsAndLatch rs s t ∧ SameLatch s t

/-- The two states differ at most in main-memory bytes that the core cannot reach, those beyond offset 65536 (R62). -/
structure SameWithinReach (s t : State) : Prop where
  cfg : t.cfg = s.cfg
  regfile : t.regfile = s.regfile
  latch : SameLatch s t
  mem : ∀ a, a ≤ 65536 → t.byteAt .mem a = s.byteAt .mem a

/-- The value `ADD_REG_REG` reads for a register when its handler began with the address `ip0` in `ip`: `ip` has moved
past both index bytes (R140, R27). -/
def addOperand (s : State) (ip0 : Nat) (r : Reg) : Nat :=
  if r = .ip then (ip0 + 2) % 65536 else (s.getReg r).toNat

/-- A faulted end: the core has halted (spec/92_eei_decisions.md D16). -/
def State.Faulted (s : State) : Prop := s.halted = true

/-- A safe run of `n` steps: every step answers a next state that is not halted (R184, D16). -/
def SafeRun : Nat → State → Prop
  | 0, s => ¬ s.Faulted
  | n + 1, s => ¬ s.Faulted ∧ ∃ t, step s = .next t ∧ SafeRun n t

end Sys2Proof.Machine
end

