-- ==== Sys2Proof/Certificates/Slice0/Obligations.lean ====
section
/-! DEFINITION. The statements for the provers, from the numbered rules of spec/. Every one holds for every `MEM_LEN` and,
where it needs more than one opcode, for every distinct choice of the three opcode bytes (`s.cfg.WellFormed`, R8). -/

open Sys2Proof Sys2Proof.Machine

/-! ### Power-on and reset -/

/-- R37: after reset every register holds 0, `ip` among them (so the entry point is address 0), and the register file
is zero-initialized: at power-on with any admissible parameters, and after a `RESET` of any state. At power-on every
byte of main memory is 0 too. -/
def Obligations.RegistersAreZeroAfterReset : Prop :=
  (∀ cfg : Config, cfg.WellFormed →
    ∃ s, powerOn cfg = .next s ∧ (∀ r : Reg, s.getReg r = 0) ∧ ∀ st a, s.byteAt st a = 0) ∧
  ∀ s : State, ∃ t r, perform .reset s = .next (t, r) ∧ (∀ r : Reg, t.getReg r = 0) ∧
    ∀ a, a < 20 → t.byteAt .regfile a = 0

/-- R8 (the spec's own decision D1): two equal opcode parameters are refused, and nothing else is: any of them may be
0, and any `MEM_LEN` goes. -/
def Obligations.PowerOnRefusesExactlyEqualOpcodes : Prop :=
  ∀ (n : Nat) (a b c : Byte),
    ((a = b ∨ a = c ∨ b = c) → powerOn ⟨n, ⟨a, b, c⟩⟩ = .refused .opcodesNotDistinct) ∧
    (¬ (a = b ∨ a = c ∨ b = c) → ∃ s, powerOn ⟨n, ⟨a, b, c⟩⟩ = .next s)

/-- R181, R38, R39 (the spec's own decision D9): in every state, halted or not, `RESET` answers `OK`, every register
is 0, the latch is clear, and no byte of main memory changes. -/
def Obligations.ResetClearsRegistersAndLatch : Prop :=
  ∀ s : State, ∃ t, perform .reset s = .next (t, .ok) ∧ (∀ r : Reg, t.getReg r = 0) ∧ t.halted = false ∧
    t.fault = none ∧ SameMemory s t ∧ t.cfg = s.cfg

/-! ### Encoding -/

/-- R82, R85, R88, with R81, R84 and R87: the opcode map is complete. Each opcode byte selects its instruction, every
operand byte is accepted, the literal is `byte1 * 256 + byte2`, and every other byte is a one-byte instruction. -/
def Obligations.OpcodeMapIsComplete : Prop :=
  ∀ (oc : Opcodes) (b1 b2 : Byte) (rest : List Byte), oc.Distinct →
    decode oc (oc.movLitR1 :: b1 :: b2 :: rest) =
      .ok (.movLitR1 (BitVec.ofNat 16 (b1.toNat * 256 + b2.toNat)), rest) ∧
    decode oc (oc.movLitR2 :: b1 :: b2 :: rest) =
      .ok (.movLitR2 (BitVec.ofNat 16 (b1.toNat * 256 + b2.toNat)), rest) ∧
    decode oc (oc.addRegReg :: b1 :: b2 :: rest) = .ok (.addRegReg b1 b2, rest) ∧
    ∀ op, op ≠ oc.movLitR1 → op ≠ oc.movLitR2 → op ≠ oc.addRegReg →
      decode oc (op :: rest) = .ok (.unrecognized op, rest)

/-- Decoding the encoding of any well-formed instruction, at every value of its operands and under every distinct
choice of opcodes, gives it back with the bytes that follow. -/
def Obligations.DecodeOfEncodeIsIdentity : Prop :=
  ∀ (oc : Opcodes) (i : Instr) (rest : List Byte), oc.Distinct → i.WellFormed oc →
    decode oc (encode oc i ++ rest) = .ok (i, rest)

/-- Every list of bytes that decodes is the encoding of the instruction it decodes to, which is well-formed, followed
by the bytes left over: each encoding has one meaning and no bit of it is dropped. -/
def Obligations.EncodeOfDecodeIsIdentity : Prop :=
  ∀ (oc : Opcodes) (bytes rest : List Byte) (i : Instr), decode oc bytes = .ok (i, rest) →
    i.WellFormed oc ∧ encode oc i ++ rest = bytes

/-- Words of spec/opcode_table.json written out (under the default opcode bytes, PRESUMED: log entry 2). The first
byte is the least significant one, so `MOV_LIT_R1 0x1234`, bytes `10 12 34`, is 0x341210. -/
def Obligations.TableWordsDecode : Prop :=
  decodeTableWord 24 0x341210 = some (.movLitR1 0x1234) ∧
  decodeTableWord 24 0xCDAB11 = some (.movLitR2 0xABCD) ∧
  decodeTableWord 24 0x030212 = some (.addRegReg 2 3) ∧
  decodeTableWord 8 0x00 = some (.unrecognized 0x00) ∧
  decodeTableWord 8 0x13 = some (.unrecognized 0x13)

/-- R89 (the spec's own decision D11): what the assembler places for a statement decodes, under every distinct choice
of opcodes, to the instruction the statement names; a register name stands for its index. -/
def Obligations.AssembledStatementsDecode : Prop :=
  ∀ oc : Opcodes, oc.Distinct →
    (∀ imm, decode oc ((AsmStmt.movLitR1 imm).bytesOf oc) = .ok (.movLitR1 imm, [])) ∧
    (∀ imm, decode oc ((AsmStmt.movLitR2 imm).bytesOf oc) = .ok (.movLitR2 imm, [])) ∧
    (∀ a b : Byte, decode oc ((AsmStmt.addRegReg (.number a) (.number b)).bytesOf oc) = .ok (.addRegReg a b, [])) ∧
    ∀ a b : Reg, ∃ ra rb : Byte, ra.toNat = a.index ∧ rb.toNat = b.index ∧
      decode oc ((AsmStmt.addRegReg (.name a) (.name b)).bytesOf oc) = .ok (.addRegReg ra rb, [])

/-! ### The Byte Stores and the registers -/

/-- R51, R53: the reads of both stores. A read in range gives the byte, or `first * 256 + second`; out of range it
raises `OutOfBounds` with the store, the offset and the width. -/
def Obligations.StoreReadsAreBoundedAndBigEndian : Prop :=
  ∀ (s : State) (st : StoreId) (off : Nat),
    (off < s.len st → s.readU8 st off = .ok (s.byteAt st off)) ∧
    (s.len st ≤ off → s.readU8 st off = .error ⟨st, off, .one⟩) ∧
    (off + 2 ≤ s.len st → s.readU16 st off =
      .ok (BitVec.ofNat 16 ((s.byteAt st off).toNat * 256 + (s.byteAt st (off + 1)).toNat))) ∧
    (s.len st < off + 2 → s.readU16 st off = .error ⟨st, off, .two⟩)

/-- R52, R54: the writes of both stores. A write in range sets its one byte, or its two bytes big-endian after cutting
the value mod 2^16, and no other byte of either store; out of range it raises `OutOfBounds` and there is no new state. -/
def Obligations.StoreWritesAreBoundedAndBigEndian : Prop :=
  ∀ (s : State) (st : StoreId) (off : Nat),
    (∀ v : Byte,
      (off < s.len st → ∃ t, s.writeU8 st off v = .ok t ∧ t.cfg = s.cfg ∧ SameLatch s t ∧
        ∀ st' a, t.byteAt st' a = if st' = st ∧ a = off then v else s.byteAt st' a) ∧
      (s.len st ≤ off → s.writeU8 st off v = .error ⟨st, off, .one⟩)) ∧
    ∀ v : Nat,
      (off + 2 ≤ s.len st → ∃ t, s.writeU16 st off v = .ok t ∧ t.cfg = s.cfg ∧ SameLatch s t ∧
        ∀ st' a, t.byteAt st' a =
          if st' = st ∧ a = off then BitVec.ofNat 8 (v % 65536 / 256)
          else if st' = st ∧ a = off + 1 then BitVec.ofNat 8 (v % 65536 % 256) else s.byteAt st' a) ∧
      (s.len st < off + 2 → s.writeU16 st off v = .error ⟨st, off, .two⟩)

/-- R20, R22: register `i` is the two register-file bytes `2i` and `2i + 1`, high byte first, and nothing but its own
two bytes changes when it is written: no other byte of the register file, no byte of main memory, not the configuration
and not the latch; the ten registers are the ten indices, in order. -/
def Obligations.RegisterOccupiesItsTwoBytes : Prop :=
  (∀ (s : State) (r : Reg),
    s.getReg r = BitVec.ofNat 16 ((s.byteAt .regfile (2 * r.index)).toNat * 256 +
      (s.byteAt .regfile (2 * r.index + 1)).toNat)) ∧
  (∀ (s : State) (r : Reg) (v : Nat),
    (∀ a, (s.setReg r v).byteAt .regfile a =
      if a = 2 * r.index then BitVec.ofNat 8 (v % 65536 / 256)
      else if a = 2 * r.index + 1 then BitVec.ofNat 8 (v % 65536 % 256) else s.byteAt .regfile a) ∧
    SameMemory s (s.setReg r v) ∧ (s.setReg r v).cfg = s.cfg ∧ SameLatch s (s.setReg r v)) ∧
  ∀ n, (n < 10 → ∃ r : Reg, Reg.ofIndex n = some r ∧ r.index = n ∧ Reg.all[n]? = some r) ∧
    (10 ≤ n → Reg.ofIndex n = none)

/-! ### The instructions -/

/-- R130, R131, R132, the effect after the literal fetch: in every state the literal moves complete, write the literal
unchanged to `r1` (to `r2`), and change nothing else: no other register, no byte of memory, not the latch. -/
def Obligations.LiteralMovesWriteTheirRegister : Prop :=
  ∀ (s : State) (imm : Word),
    (∃ t, exec (.movLitR1 imm) s = .next t ∧ t.getReg .r1 = imm ∧ OnlyRegs [.r1] s t) ∧
    (∃ t, exec (.movLitR2 imm) s = .next t ∧ t.getReg .r2 = imm ∧ OnlyRegs [.r2] s t)

/-- R140, R142, the effect after the index fetches: whenever both index bytes are below 10 the addition completes,
`acc` is the sum of the two registers mod 2^16 (read before `acc` is written), and nothing else changes. -/
def Obligations.AddWritesSumToAcc : Prop :=
  ∀ (s : State) (ra rb : Byte) (a b : Reg), ra.toNat = a.index → rb.toNat = b.index →
    ∃ t, exec (.addRegReg ra rb) s = .next t ∧
      t.getReg .acc = BitVec.ofNat 16 (((s.getReg a).toNat + (s.getReg b).toNat) % 65536) ∧ OnlyRegs [.acc] s t

/-- R140 (exceptions 3 and 4), R141: an index of 10 or more raises `OutOfBounds(REGFILE, 2 * index, 2)`, the first one
in the order `ra`, `rb`; the core latches it and nothing else changes, `acc` included. -/
def Obligations.AddWithBadIndexLatches : Prop :=
  ∀ (s : State) (ra rb : Byte),
    (10 ≤ ra.toNat → ∃ t, exec (.addRegReg ra rb) s = .next t ∧ Latched t ⟨.regfile, 2 * ra.toNat, .two⟩ ∧
      OnlyRegsAndLatch [] s t) ∧
    (ra.toNat < 10 → 10 ≤ rb.toNat → ∃ t, exec (.addRegReg ra rb) s = .next t ∧
      Latched t ⟨.regfile, 2 * rb.toNat, .two⟩ ∧ OnlyRegsAndLatch [] s t)

/-- R142: the addition is commutative. With an index in range both orders give the same outcome; when both are out of
range they differ in the recorded offset alone. -/
def Obligations.AddIsCommutative : Prop :=
  ∀ (s : State) (ra rb : Byte),
    ((ra.toNat < 10 ∨ rb.toNat < 10) → exec (.addRegReg ra rb) s = exec (.addRegReg rb ra) s) ∧
    (10 ≤ ra.toNat → 10 ≤ rb.toNat → ∃ t, exec (.addRegReg ra rb) s = .next t ∧
      exec (.addRegReg rb ra) s =
        .next { t with fault := some ⟨⟨.regfile, 2 * rb.toNat, .two⟩, .outOfBounds⟩ })

/-- R107, R154: an unrecognized opcode completes and changes nothing, under `exec` and under `execute(op)`; under
`STEP` the only effect is that `ip` advances by 1 mod 2^16. -/
def Obligations.UnrecognizedOpcodeIsNoOp : Prop :=
  ∀ (s : State) (op : Byte),
    exec (.unrecognized op) s = .next s ∧
    (op ≠ s.cfg.opcodes.movLitR1 → op ≠ s.cfg.opcodes.movLitR2 → op ≠ s.cfg.opcodes.addRegReg →
      executeOpcode op s = .next s ∧
      (s.halted = false → (s.getReg .ip).toNat < s.cfg.memLen → s.byteAt .mem (s.getReg .ip).toNat = op →
        ∃ t, step s = .next t ∧ t.getReg .ip = BitVec.ofNat 16 ((s.getReg .ip).toNat + 1) ∧ OnlyRegs [.ip] s t))

/-- R130 whole, with `ip0` the address in `ip` when the handler begins: the literal is the two bytes at `ip0`, high
byte first, and `ip` advances by 2 mod 2^16; when they do not fit, `OutOfBounds(MEM, ip0, 2)`, and nothing else
changes. The error is latched (R156, the spec's own decision D5), and that it ends in a next state is the model's choice
(log entry 5). -/
def Obligations.MovLitR1Executes : Prop :=
  ∀ s : State, ∃ t, executeOpcode s.cfg.opcodes.movLitR1 s = .next t ∧
    ((s.getReg .ip).toNat + 2 ≤ s.cfg.memLen →
      t.getReg .r1 = BitVec.ofNat 16 ((s.byteAt .mem (s.getReg .ip).toNat).toNat * 256 +
        (s.byteAt .mem ((s.getReg .ip).toNat + 1)).toNat) ∧
      t.getReg .ip = BitVec.ofNat 16 ((s.getReg .ip).toNat + 2) ∧ OnlyRegs [.ip, .r1] s t) ∧
    (s.cfg.memLen < (s.getReg .ip).toNat + 2 →
      Latched t ⟨.mem, (s.getReg .ip).toNat, .two⟩ ∧ OnlyRegsAndLatch [] s t)

/-- R131 whole, as R130 with `r2`. The error is latched (R156, the spec's own decision D5), and that it ends in a next
state is the model's choice (log entry 5). -/
def Obligations.MovLitR2Executes : Prop :=
  ∀ s : State, s.cfg.WellFormed → ∃ t, executeOpcode s.cfg.opcodes.movLitR2 s = .next t ∧
    ((s.getReg .ip).toNat + 2 ≤ s.cfg.memLen →
      t.getReg .r2 = BitVec.ofNat 16 ((s.byteAt .mem (s.getReg .ip).toNat).toNat * 256 +
        (s.byteAt .mem ((s.getReg .ip).toNat + 1)).toNat) ∧
      t.getReg .ip = BitVec.ofNat 16 ((s.getReg .ip).toNat + 2) ∧ OnlyRegs [.ip, .r2] s t) ∧
    (s.cfg.memLen < (s.getReg .ip).toNat + 2 →
      Latched t ⟨.mem, (s.getReg .ip).toNat, .two⟩ ∧ OnlyRegsAndLatch [] s t)

/-- R140 whole, with `ip0` the address in `ip` when the handler begins: the index bytes at `ip0` and the next address,
the four exceptions in the order they are checked with what each leaves in `ip`, and the sum. The order of the two
fetches and the two reads is the spec's own decision D4. Each error is latched (R156, the spec's own decision D5), and
that it ends in a next state is the model's choice (log entry 5). -/
def Obligations.AddRegRegExecutes : Prop :=
  ∀ (s : State) (ip0 ip1 : Nat) (ra rb : Byte), s.cfg.WellFormed → ip0 = (s.getReg .ip).toNat →
    ip1 = (ip0 + 1) % 65536 → ra = s.byteAt .mem ip0 → rb = s.byteAt .mem ip1 →
    ∃ t, executeOpcode s.cfg.opcodes.addRegReg s = .next t ∧
      (s.cfg.memLen ≤ ip0 → Latched t ⟨.mem, ip0, .one⟩ ∧ OnlyRegsAndLatch [] s t) ∧
      (ip0 < s.cfg.memLen → s.cfg.memLen ≤ ip1 →
        Latched t ⟨.mem, ip1, .one⟩ ∧ t.getReg .ip = BitVec.ofNat 16 (ip0 + 1) ∧ OnlyRegsAndLatch [.ip] s t) ∧
      (ip0 < s.cfg.memLen → ip1 < s.cfg.memLen → t.getReg .ip = BitVec.ofNat 16 (ip0 + 2) ∧
        (10 ≤ ra.toNat → Latched t ⟨.regfile, 2 * ra.toNat, .two⟩ ∧ OnlyRegsAndLatch [.ip] s t) ∧
        (ra.toNat < 10 → 10 ≤ rb.toNat →
          Latched t ⟨.regfile, 2 * rb.toNat, .two⟩ ∧ OnlyRegsAndLatch [.ip] s t) ∧
        ∀ a b : Reg, ra.toNat = a.index → rb.toNat = b.index →
          t.getReg .acc = BitVec.ofNat 16 ((addOperand s ip0 a + addOperand s ip0 b) % 65536) ∧
          OnlyRegs [.ip, .acc] s t)

/-! ### The step -/

/-- A step runs the decoded instruction: when the core is not halted and the bytes at the offsets a step reads
(`State.instrOffsets`) are in main memory and decode to `i`, the step is `exec i` at the state with `ip` moved past
the instruction. (The register file's canonical form, part of `State.Inv`, makes the two states equal as data.) -/
def Obligations.StepRunsTheDecodedInstruction : Prop :=
  ∀ (s : State) (i : Instr), s.halted = false → Memory.wf regfileLen s.regfile →
    (∀ a ∈ s.instrOffsets, a < s.cfg.memLen) →
    decode s.cfg.opcodes (s.instrOffsets.map (s.byteAt .mem)) = .ok (i, []) →
    step s = exec i (s.setReg .ip ((s.getReg .ip).toNat + i.length))

/-- The interface's loader: after `withFetchWord` the very next step runs the instruction its word decodes to, from
every state, halted or not, whatever its `MEM_LEN` (log entry 10). -/
def Obligations.PlacedWordRunsNext : Prop :=
  ∀ (s : State) (nbits w : Nat) (i : Instr) (rest : List Byte), Memory.wf regfileLen s.regfile →
    decode s.cfg.opcodes (tableBytes nbits w) = .ok (i, rest) →
    step (s.withFetchWord nbits w) =
      exec i ((s.withFetchWord nbits w).setReg .ip ((s.getReg .ip).toNat + i.length))

/-- R105, R102, and R156 (the spec's own decision D5) for the latch: an unhalted step fetches the opcode at `ip`,
advances `ip`, and executes it; when the opcode is out of range it latches `OutOfBounds(MEM, ip, 1)` and changes
nothing else. -/
def Obligations.StepFetchesThenExecutes : Prop :=
  ∀ s : State, s.halted = false →
    ((s.getReg .ip).toNat < s.cfg.memLen →
      step s = executeOpcode (s.byteAt .mem (s.getReg .ip).toNat) (s.setReg .ip ((s.getReg .ip).toNat + 1))) ∧
    (s.cfg.memLen ≤ (s.getReg .ip).toNat →
      ∃ t, step s = .next t ∧ Latched t ⟨.mem, (s.getReg .ip).toNat, .one⟩ ∧ OnlyRegsAndLatch [] s t)

/-- A step answers a next state exactly when the core is not halted; it never refuses, and its one fault is the
refusal of R101. (That this refusal is the machine's stop is the model's choice: log entry 5.) -/
def Obligations.StepStopsExactlyWhenHalted : Prop :=
  ∀ s : State, (s.halted = false → ∃ t, step s = .next t) ∧
    (s.halted = true → step s = .fault (.coreHalted s.fault))

/-- R27 (an inference the spec marks as its own), R28, R30, R80: a step that raises no error moves `ip` past the
instruction: 3 bytes for the three instructions and 1 for an unrecognized opcode, mod 2^16. -/
def Obligations.CompletedStepAdvancesIp : Prop :=
  ∀ s t : State, step s = .next t → t.halted = false →
    (dispatch s.cfg.opcodes (s.byteAt .mem (s.getReg .ip).toNat) = .unrecognized →
      t.getReg .ip = BitVec.ofNat 16 ((s.getReg .ip).toNat + 1)) ∧
    (dispatch s.cfg.opcodes (s.byteAt .mem (s.getReg .ip).toNat) ≠ .unrecognized →
      t.getReg .ip = BitVec.ofNat 16 ((s.getReg .ip).toNat + 3))

/-- R155, R158, and R156 (the spec's own decision D5) for the latch: a step that raises an error changes nothing but
`ip` and the latch, and leaves `ip` past exactly the bytes it fetched, so the record names the access that failed and
`ip` says how many fetches came before it. A failing opcode fetch is recorded at the old `ip` and leaves `ip` there; a
failing literal fetch leaves `ip` 1 on; a failing index fetch 1 on when it is the first and 2 on when it is the second; a
failing register read 3 on. A failing fetch is recorded at the address now in `ip`, and that access is out of range.
(That an error ends in a next state is the model's choice: log entry 5.) -/
def Obligations.FailedStepLeavesOnlyFetchAdvance : Prop :=
  ∀ s t : State, step s = .next t → t.halted = true →
    ∃ (e : AccessInfo) (n : Nat), Latched t e ∧ OnlyRegsAndLatch [.ip] s t ∧
      t.getReg .ip = BitVec.ofNat 16 ((s.getReg .ip).toNat + n) ∧ s.len e.store < e.offset + e.width.bytes ∧
      (e.store = .mem → e.offset = ((s.getReg .ip).toNat + n) % 65536) ∧
      (s.cfg.memLen ≤ (s.getReg .ip).toNat → e.store = .mem ∧ e.width = .one ∧ n = 0) ∧
      ((s.getReg .ip).toNat < s.cfg.memLen →
        (dispatch s.cfg.opcodes (s.byteAt .mem (s.getReg .ip).toNat) ≠ .addRegReg →
          e.store = .mem ∧ e.width = .two ∧ n = 1) ∧
        (dispatch s.cfg.opcodes (s.byteAt .mem (s.getReg .ip).toNat) = .addRegReg →
          (e.store = .mem → e.width = .one ∧
            (n = 1 ∨ n = 2 ∧ ((s.getReg .ip).toNat + 1) % 65536 < s.cfg.memLen)) ∧
          (e.store = .regfile → e.width = .two ∧ n = 3)))

/-- R60 (an inference the spec marks as its own): no instruction and no step writes main memory; of all host commands
only the two memory writes can. -/
def Obligations.OnlyHostWritesChangeMainMemory : Prop :=
  (∀ (i : Instr) (s t : State), exec i s = .next t → SameMemory s t) ∧
  (∀ s t : State, step s = .next t → SameMemory s t) ∧
  ∀ (c : Command) (s t : State) (r : Response), perform c s = .next (t, r) →
    (∀ a v, c ≠ .memWrite8 a v) → (∀ a v, c ≠ .memWrite16 a v) → SameMemory s t

/-- R24 (an inference the spec marks as its own): which instruction a step must have run for a register to change:
`r1` only under `MOV_LIT_R1`, `r2` only under `MOV_LIT_R2`, `acc` only under `ADD_REG_REG`, and `r3` to `r8` never. -/
def Obligations.StepsWriteOnlyTheirRegister : Prop :=
  ∀ s t : State, step s = .next t →
    (t.getReg .r1 ≠ s.getReg .r1 → s.byteAt .mem (s.getReg .ip).toNat = s.cfg.opcodes.movLitR1) ∧
    (t.getReg .r2 ≠ s.getReg .r2 → s.byteAt .mem (s.getReg .ip).toNat = s.cfg.opcodes.movLitR2) ∧
    (t.getReg .acc ≠ s.getReg .acc → s.byteAt .mem (s.getReg .ip).toNat = s.cfg.opcodes.addRegReg) ∧
    SameRegsExcept [.ip, .acc, .r1, .r2] s t

/-- R62 (an inference the spec marks as its own): the core can reach main-memory offsets 0..65536 at most. Every step
keeps the relation of two states that differ only in bytes beyond them (`SameWithinReach`: the same registers, latch,
configuration and reachable bytes): from two such states it ends in two such states. -/
def Obligations.StepIgnoresMemoryBeyondReach : Prop :=
  ∀ s s' t : State, SameWithinReach s s' → step s = .next t → ∃ t', step s' = .next t' ∧ SameWithinReach t t'

/-- R184 (an inference the spec marks as its own): from any running state whose memory is all 0, where 0 is no opcode
parameter, steps are one-byte no-ops. With `MEM_LEN` at most 65535 they go on until `ip` reaches `MEM_LEN`, where the
opcode fetch faults; with `MEM_LEN` at least 65536 until `ip` wraps to 0. -/
def Obligations.ZeroFilledMemoryRunsAsNoOps : Prop :=
  ∀ s : State, s.halted = false → (∀ a, s.byteAt .mem a = 0) → s.cfg.opcodes.Unrecognized 0 →
    (s.cfg.memLen ≤ 65535 → (s.getReg .ip).toNat ≤ s.cfg.memLen →
      ∃ t u, Host.Core.run Sys2Proof.core (s.cfg.memLen - (s.getReg .ip).toNat) s = .next t ∧
        (t.getReg .ip).toNat = s.cfg.memLen ∧ OnlyRegs [.ip] s t ∧
        step t = .next u ∧ Latched u ⟨.mem, s.cfg.memLen, .one⟩ ∧ OnlyRegsAndLatch [] t u) ∧
    (65536 ≤ s.cfg.memLen →
      ∃ t, Host.Core.run Sys2Proof.core (65536 - (s.getReg .ip).toNat) s = .next t ∧
        t.getReg .ip = 0 ∧ OnlyRegs [.ip] s t)

/-! ### The invariant -/

/-- The invariant holds of the power-on state of every admissible configuration. `State.reset` is that state for
`Config.standard`, whose `MEM_LEN` and opcode bytes are the model's choice (log entries 2 and 3). -/
def Obligations.PowerOnMeetsInvariant : Prop :=
  (∀ cfg : Config, cfg.WellFormed → ∃ s, powerOn cfg = .next s ∧ s.Inv) ∧
  powerOn Config.standard = .next State.reset ∧ State.reset.Inv

/-- Every step keeps the invariant: distinct opcodes, both stores canonical and inside their length, the latch set
exactly when it holds a record, and that record of an access out of its store's range. -/
def Obligations.StepKeepsInvariant : Prop :=
  ∀ s t : State, s.Inv → step s = .next t → t.Inv

/-- Every host command keeps the invariant. -/
def Obligations.CommandsKeepInvariant : Prop :=
  ∀ (c : Command) (s t : State) (r : Response), s.Inv → perform c s = .next (t, r) → t.Inv

/-! ### The host's commands -/

/-- R109, R102, R103, and R156 (the spec's own decision D5) for the latch: `FETCH8` and `FETCH16` answer the byte, or the big-endian 16-bit value, at `ip` and advance `ip`
by 1 or 2 mod 2^16; out of range they latch the error and answer it, with `ip` unchanged. -/
def Obligations.FetchCommandsAdvanceIp : Prop :=
  ∀ s : State, s.halted = false →
    (∃ t r, perform .fetch8 s = .next (t, r) ∧
      ((s.getReg .ip).toNat < s.cfg.memLen → r = .okByte (s.byteAt .mem (s.getReg .ip).toNat) ∧
        t.getReg .ip = BitVec.ofNat 16 ((s.getReg .ip).toNat + 1) ∧ OnlyRegs [.ip] s t) ∧
      (s.cfg.memLen ≤ (s.getReg .ip).toNat → r = .err (.outOfBounds ⟨.mem, (s.getReg .ip).toNat, .one⟩) ∧
        Latched t ⟨.mem, (s.getReg .ip).toNat, .one⟩ ∧ OnlyRegsAndLatch [] s t)) ∧
    (∃ t r, perform .fetch16 s = .next (t, r) ∧
      ((s.getReg .ip).toNat + 2 ≤ s.cfg.memLen →
        r = .okWord (BitVec.ofNat 16 ((s.byteAt .mem (s.getReg .ip).toNat).toNat * 256 +
          (s.byteAt .mem ((s.getReg .ip).toNat + 1)).toNat)) ∧
        t.getReg .ip = BitVec.ofNat 16 ((s.getReg .ip).toNat + 2) ∧ OnlyRegs [.ip] s t) ∧
      (s.cfg.memLen < (s.getReg .ip).toNat + 2 →
        r = .err (.outOfBounds ⟨.mem, (s.getReg .ip).toNat, .two⟩) ∧
        Latched t ⟨.mem, (s.getReg .ip).toNat, .two⟩ ∧ OnlyRegsAndLatch [] s t))

/-- R108 (the spec's own decision D2), and R156 (D5) for the error: on a core that is not halted `EXEC(op)` leaves the
state `execute(op)` leaves, for every opcode, and answers `OK` when no error was raised and the latched error otherwise.
`EXEC(OPC_MOV_LIT_R1)` reads its literal at `ip` and leaves `ip + 2`, answering `OK`; `EXEC` of an unrecognized byte
answers `OK` and changes nothing. -/
def Obligations.ExecCommandExecutesTheGivenOpcode : Prop :=
  ∀ (s : State) (op : Byte), s.halted = false →
    (∃ t r, perform (.exec op) s = .next (t, r) ∧ executeOpcode op s = .next t ∧
      (t.halted = false → r = .ok) ∧
      (t.halted = true → ∃ e, r = .err (.outOfBounds e) ∧ Latched t e)) ∧
    (op = s.cfg.opcodes.movLitR1 → (s.getReg .ip).toNat + 2 ≤ s.cfg.memLen →
      ∃ t, perform (.exec op) s = .next (t, .ok) ∧
        t.getReg .r1 = BitVec.ofNat 16 ((s.byteAt .mem (s.getReg .ip).toNat).toNat * 256 +
          (s.byteAt .mem ((s.getReg .ip).toNat + 1)).toNat) ∧
        t.getReg .ip = BitVec.ofNat 16 ((s.getReg .ip).toNat + 2) ∧ OnlyRegs [.ip, .r1] s t) ∧
    (s.cfg.opcodes.Unrecognized op → perform (.exec op) s = .next (s, .ok))

/-- The state and response of `STEP` as a command: the state of `step`; `OK` when no error was raised, the latched
error otherwise; refused while halted (R105; R101 and R156 are the spec's own decision D5). -/
def Obligations.StepCommandAnswersTheStep : Prop :=
  ∀ s : State,
    (s.halted = false → ∃ t r, perform .step s = .next (t, r) ∧ step s = .next t ∧
      (t.halted = false → r = .ok) ∧
      (t.halted = true → ∃ e, r = .err (.outOfBounds e) ∧ Latched t e)) ∧
    (s.halted = true → perform .step s = .next (s, .err (.coreHalted s.fault)))

/-- R40 (the spec's own decision D7): `GETREG(sel)` answers the register for `sel` below 10 and `UnknownRegister(sel)`
from 10 on, and changes no state either way, halted or not. -/
def Obligations.GetRegAnswersTheRegister : Prop :=
  ∀ s : State, (∀ r : Reg, perform (.getReg r.index) s = .next (s, .okWord (s.getReg r))) ∧
    ∀ sel, 10 ≤ sel → perform (.getReg sel) s = .next (s, .err (.unknownRegister sel))

/-- R41 (the spec's own decision D7): `SETREG(sel, v)` writes `v mod 2^16` to the register's two bytes and changes
nothing else, halted or not; for `sel` from 10 on it answers `UnknownRegister(sel)` and writes nothing. -/
def Obligations.SetRegWritesExactlyOneRegister : Prop :=
  ∀ (s : State) (v : Nat),
    (∀ r : Reg, ∃ t, perform (.setReg r.index v) s = .next (t, .ok) ∧ t.getReg r = BitVec.ofNat 16 (v % 65536) ∧
      OnlyRegs [r] s t ∧
      ∀ a, a ≠ 2 * r.index → a ≠ 2 * r.index + 1 → t.byteAt .regfile a = s.byteAt .regfile a) ∧
    ∀ sel, 10 ≤ sel → perform (.setReg sel v) s = .next (s, .err (.unknownRegister sel))

/-- R42 (an inference the spec marks as its own): for every `sel` in 0..9 and every 16-bit `v`, `SETREG(sel, v)`
followed by `GETREG(sel)` answers `v`. -/
def Obligations.SetRegThenGetRegRoundTrips : Prop :=
  ∀ (s : State) (sel : Nat) (v : Word), sel < 10 →
    ∃ t, performAll [.setReg sel v.toNat, .getReg sel] s = .next (t, [.ok, .okWord v])

/-- R63 (the spec's own decisions D8, D12), R64: the four memory commands are the four accessors on `MEM` at a natural
address. In range a read answers the value and changes nothing, a write answers `OK` and changes its bytes alone; out
of range they answer the error, change nothing and do not halt the core. -/
def Obligations.MemoryPortServesTheAccessors : Prop :=
  ∀ (s : State) (a : Nat),
    (a < s.cfg.memLen → perform (.memRead8 a) s = .next (s, .okByte (s.byteAt .mem a))) ∧
    (a + 2 ≤ s.cfg.memLen → perform (.memRead16 a) s =
      .next (s, .okWord (BitVec.ofNat 16 ((s.byteAt .mem a).toNat * 256 + (s.byteAt .mem (a + 1)).toNat)))) ∧
    (a < s.cfg.memLen → ∀ v : Byte, ∃ t, perform (.memWrite8 a v) s = .next (t, .ok) ∧
      t.cfg = s.cfg ∧ t.regfile = s.regfile ∧ SameLatch s t ∧
      ∀ b, t.byteAt .mem b = if b = a then v else s.byteAt .mem b) ∧
    (a + 2 ≤ s.cfg.memLen → ∀ v : Nat, ∃ t, perform (.memWrite16 a v) s = .next (t, .ok) ∧
      t.cfg = s.cfg ∧ t.regfile = s.regfile ∧ SameLatch s t ∧
      ∀ b, t.byteAt .mem b = if b = a then BitVec.ofNat 8 (v % 65536 / 256)
        else if b = a + 1 then BitVec.ofNat 8 (v % 65536 % 256) else s.byteAt .mem b) ∧
    (s.cfg.memLen ≤ a → perform (.memRead8 a) s = .next (s, .err (.outOfBounds ⟨.mem, a, .one⟩)) ∧
      ∀ v, perform (.memWrite8 a v) s = .next (s, .err (.outOfBounds ⟨.mem, a, .one⟩))) ∧
    (s.cfg.memLen < a + 2 → perform (.memRead16 a) s = .next (s, .err (.outOfBounds ⟨.mem, a, .two⟩)) ∧
      ∀ v, perform (.memWrite16 a v) s = .next (s, .err (.outOfBounds ⟨.mem, a, .two⟩)))

/-- R67 (the spec's own decision D8): a host memory write is seen by the next fetch. A byte written at `ip` is the
byte `FETCH8` answers and the opcode the next step executes; a 16-bit value written at `ip` is the value `FETCH16`
answers. -/
def Obligations.FetchSeesHostWrites : Prop :=
  ∀ (s : State) (a : Nat), s.halted = false → a = (s.getReg .ip).toNat →
    (a < s.cfg.memLen → ∀ v : Byte, ∃ t, perform (.memWrite8 a v) s = .next (t, .ok) ∧
      (∃ u, perform .fetch8 t = .next (u, .okByte v)) ∧ step t = executeOpcode v (t.setReg .ip (a + 1))) ∧
    (a + 2 ≤ s.cfg.memLen → ∀ v : Word, ∃ t u, perform (.memWrite16 a v.toNat) s = .next (t, .ok) ∧
      perform .fetch16 t = .next (u, .okWord v))

/-- R183: the commands that load a list of bytes that fits in main memory all answer `OK`, put each byte at its
offset, and change nothing else. -/
def Obligations.LoadingPlacesEveryByte : Prop :=
  ∀ (s : State) (pos : Nat) (bytes : List Byte), pos + bytes.length ≤ s.cfg.memLen →
    ∃ t rs, performAll (loadCommands (placeAt pos bytes)) s = .next (t, rs) ∧ (∀ r ∈ rs, r = .ok) ∧
      (∀ k, (h : k < bytes.length) → t.byteAt .mem (pos + k) = bytes[k]) ∧
      (∀ a, a < pos ∨ pos + bytes.length ≤ a → t.byteAt .mem a = s.byteAt .mem a) ∧
      t.cfg = s.cfg ∧ t.regfile = s.regfile ∧ SameLatch s t

/-- R165 (the spec's own decision D13): `DEBUG` answers the ten registers, in order, with their values, and changes no
state, halted or not. -/
def Obligations.DebugShowsTheRegistersInOrder : Prop :=
  ∀ s : State, perform .debug s = .next (s, .okRegs
    [(.ip, s.getReg .ip), (.acc, s.getReg .acc), (.r1, s.getReg .r1), (.r2, s.getReg .r2), (.r3, s.getReg .r3),
     (.r4, s.getReg .r4), (.r5, s.getReg .r5), (.r6, s.getReg .r6), (.r7, s.getReg .r7), (.r8, s.getReg .r8)])

/-- R157, R101 (the spec's own decision D5): while the core is halted every core command is refused with the latched
record and changes no state, every host-port command is served and leaves the latch, and `RESET` clears it. -/
def Obligations.HaltedCoreServesOnlyTheHostPorts : Prop :=
  ∀ (s : State) (c : Command), s.halted = true →
    (c.kind = .core → perform c s = .next (s, .err (.coreHalted s.fault))) ∧
    (c.kind = .hostPort → ∃ t r, perform c s = .next (t, r) ∧ SameLatch s t ∧ ∀ x, r ≠ .err (.coreHalted x)) ∧
    (c.kind = .reset → ∃ t r, perform c s = .next (t, r) ∧ t.halted = false ∧ t.fault = none)

/-- R162 (the spec's own decision D5): the only way out of the halted state is `RESET`. However many other commands
the host issues, the core stays halted and no second error replaces the latched one. -/
def Obligations.OnlyResetLeavesTheHaltedState : Prop :=
  ∀ (cs : List Command) (s t : State) (rs : List Response), s.halted = true →
    performAll cs s = .next (t, rs) → .reset ∉ cs → t.halted = true ∧ t.fault = s.fault

/-- R156 (the spec's own decision D5): on a core that is not halted, a core command either raises no error and leaves
the latch, or answers an `OutOfBounds` error and latches exactly that error; a host-port command never touches the
latch. -/
def Obligations.ErrorsLatchExactlyInCoreCommands : Prop :=
  ∀ (c : Command) (s t : State) (r : Response), s.halted = false → perform c s = .next (t, r) →
    (c.kind = .core → (SameLatch s t ∧ ∀ e, r ≠ .err e) ∨ ∃ e, r = .err (.outOfBounds e) ∧ Latched t e) ∧
    (c.kind = .hostPort → SameLatch s t)

/-- R152: `UnknownRegister` is answered only by `GETREG` and `SETREG` with `sel` outside 0..9, and changes no state. -/
def Obligations.UnknownRegisterComesOnlyFromTheRegisterPort : Prop :=
  ∀ (c : Command) (s t : State) (n : Nat), perform c s = .next (t, .err (.unknownRegister n)) ↔
    t = s ∧ 10 ≤ n ∧ (c = .getReg n ∨ ∃ v, c = .setReg n v)

/-- R151, R153 (an inference and the decision D10 of the spec's own): an `OutOfBounds` answer always names an access
that reaches past the end of its store, and the register file only from a core command; no command ever answers
`Allocation`. -/
def Obligations.OutOfBoundsAnswersAreGenuine : Prop :=
  ∀ (c : Command) (s t : State), perform c s ≠ .next (t, .err .allocation) ∧
    ∀ e, perform c s = .next (t, .err (.outOfBounds e)) →
      s.len e.store < e.offset + e.width.bytes ∧ (e.store = .regfile → c.kind = .core)

/-- R100 (the spec's own decision D2): every command, in every state, is performed and answered. -/
def Obligations.EveryCommandIsAnswered : Prop :=
  ∀ (c : Command) (s : State), ∃ t r, perform c s = .next (t, r)
end

