-- ==== Sys2Proof/Laws/Word.lean ====
section
/-! SUPPORT. The laws of the byte-order helpers: the two bytes of a 16-bit value and the value determine each other. -/

namespace Sys2Proof

@[simp] theorem be16_hiByte_loByte (v : Word) : be16 (hiByte v) (loByte v) = v := by
  simp only [be16, hiByte, loByte]
  ext i hi
  simp only [BitVec.getElem_append, BitVec.getElem_extractLsb']
  split <;> simp_all

@[simp] theorem hiByte_be16 (hi lo : Byte) : hiByte (be16 hi lo) = hi := by
  simp only [be16, hiByte]
  ext i h
  simp only [BitVec.getElem_extractLsb', BitVec.getLsbD_append]
  simp [BitVec.getLsbD_eq_getElem h]

@[simp] theorem loByte_be16 (hi lo : Byte) : loByte (be16 hi lo) = lo := by
  simp only [be16, loByte]
  ext i h
  simp only [BitVec.getElem_extractLsb', BitVec.getLsbD_append]
  simp [h]

/-- `be16(hi, lo)` = `hi * 256 + lo` (spec/00_scope.md R11). -/
theorem be16_toNat (hi lo : Byte) : (be16 hi lo).toNat = hi.toNat * 256 + lo.toNat := by
  simp only [be16, BitVec.toNat_append]
  rw [← Nat.shiftLeft_add_eq_or_of_lt lo.isLt, Nat.shiftLeft_eq]

/-- The same, as the 16-bit value of `hi * 256 + lo`. -/
theorem ofNat_be16 (hi lo : Byte) : BitVec.ofNat 16 (hi.toNat * 256 + lo.toNat) = be16 hi lo := by
  rw [← be16_toNat]
  simp

/-- The high byte of `v mod 2^16` as a number. -/
theorem hiByte_ofNat (v : Nat) : hiByte (BitVec.ofNat 16 v) = BitVec.ofNat 8 (v % 65536 / 256) := by
  apply BitVec.eq_of_toNat_eq
  simp [hiByte, Nat.shiftRight_eq_div_pow]

/-- The low byte of `v mod 2^16` as a number. -/
theorem loByte_ofNat (v : Nat) : loByte (BitVec.ofNat 16 v) = BitVec.ofNat 8 (v % 65536 % 256) := by
  apply BitVec.eq_of_toNat_eq
  simp [loByte]

theorem be16_inj {a b c d : Byte} (h : be16 a b = be16 c d) : a = c ∧ b = d := by
  exact ⟨by simpa using congrArg hiByte h, by simpa using congrArg loByte h⟩

@[simp] theorem ofNat_toNat16 (v : Word) : BitVec.ofNat 16 v.toNat = v := by simp

end Sys2Proof
end

