-- ==== Sys2Proof/Laws/Decode.lean ====
section
/-! SUPPORT. The laws of the opcode dispatch: which kind each opcode byte has, and which byte each kind has. -/

namespace Sys2Proof

@[simp] theorem dispatch_movLitR1 (oc : Opcodes) : dispatch oc oc.movLitR1 = .movLitR1 := if_pos rfl

theorem dispatch_movLitR2 {oc : Opcodes} (h : oc.Distinct) : dispatch oc oc.movLitR2 = .movLitR2 := by
  simp [dispatch, h.1.symm]

theorem dispatch_addRegReg {oc : Opcodes} (h : oc.Distinct) : dispatch oc oc.addRegReg = .addRegReg := by
  simp [dispatch, h.2.1.symm, h.2.2.symm]

theorem dispatch_unrecognized {oc : Opcodes} {op : Byte} (h : oc.Unrecognized op) :
    dispatch oc op = .unrecognized := by
  simp [dispatch, h.1, h.2.1, h.2.2]

theorem eq_movLitR1_of_dispatch {oc : Opcodes} {op : Byte} (h : dispatch oc op = .movLitR1) : op = oc.movLitR1 := by
  unfold dispatch at h
  split_ifs at h
  assumption

theorem eq_movLitR2_of_dispatch {oc : Opcodes} {op : Byte} (h : dispatch oc op = .movLitR2) : op = oc.movLitR2 := by
  unfold dispatch at h
  split_ifs at h
  assumption

theorem eq_addRegReg_of_dispatch {oc : Opcodes} {op : Byte} (h : dispatch oc op = .addRegReg) : op = oc.addRegReg := by
  unfold dispatch at h
  split_ifs at h
  assumption

theorem unrecognized_of_dispatch {oc : Opcodes} {op : Byte} (h : dispatch oc op = .unrecognized) :
    oc.Unrecognized op := by
  unfold dispatch at h
  split_ifs at h
  exact ⟨‹_›, ‹_›, ‹_›⟩

end Sys2Proof
end

