-- ==== Sys2Proof/Laws/Memory.lean ====
section
/-! SUPPORT. The laws of a store's byte list: read after write, and that every operation keeps the canonical form. -/

namespace Sys2Proof.Machine

@[simp] theorem Memory.read_nil (a : Nat) : Memory.read [] a = 0 := rfl

theorem Memory.read_cons (c : Host.Cell) (m : Memory) (a : Nat) :
    Memory.read (c :: m) a = if c.1 = a then c.2 else Memory.read m a := rfl

theorem Memory.read_erase_same (m : Memory) (a : Nat) : (Memory.erase m a).read a = Memory.unlisted := by
  induction m with
  | nil => rfl
  | cons c m ih =>
    by_cases h : c.1 = a
    · simpa [Memory.erase, h] using ih
    · simpa [Memory.erase, h, Memory.read_cons] using ih

theorem Memory.read_erase_ne (m : Memory) {a b : Nat} (hab : b ≠ a) :
    (Memory.erase m a).read b = Memory.read m b := by
  induction m with
  | nil => rfl
  | cons c m ih =>
    by_cases h : c.1 = a
    · have hb : c.1 ≠ b := fun h' => hab (h'.symm.trans h)
      simpa [Memory.erase, h, Memory.read_cons, hab, Ne.symm hab] using ih
    · have ih' : Memory.read (List.filter (fun c => decide (c.1 ≠ a)) m) b = Memory.read m b := ih
      simp only [Memory.erase, ne_eq, h, not_false_eq_true, decide_true, List.filter_cons_of_pos, Memory.read_cons]
      rw [show List.filter (fun c => decide (¬c.1 = a)) m = List.filter (fun c => decide (c.1 ≠ a)) m from rfl, ih']

theorem Memory.read_insert_same (m : Memory) (a : Nat) (v : Byte) (h : ∀ c ∈ m, c.1 ≠ a) :
    (Memory.insert m a v).read a = v := by
  induction m with
  | nil => simp [Memory.insert, Memory.read_cons]
  | cons c m ih =>
    rw [List.forall_mem_cons] at h
    simp only [Memory.insert]
    split
    · simp [Memory.read_cons]
    · simpa [Memory.read_cons, h.1] using ih h.2

theorem Memory.read_insert_ne (m : Memory) {a b : Nat} (v : Byte) (hab : b ≠ a) :
    (Memory.insert m a v).read b = Memory.read m b := by
  induction m with
  | nil => simp [Memory.insert, Memory.read_cons, hab.symm]
  | cons c m ih =>
    simp only [Memory.insert]
    split
    · simp [Memory.read_cons, hab.symm]
    · simp [Memory.read_cons, ih]

theorem Memory.erase_mem {m : Memory} {a : Nat} {c : Host.Cell} :
    c ∈ Memory.erase m a ↔ c ∈ m ∧ c.1 ≠ a := by simp [Memory.erase]

theorem Memory.insert_mem {m : Memory} {a : Nat} {v : Byte} {c : Host.Cell} :
    c ∈ Memory.insert m a v ↔ c = (a, v) ∨ c ∈ m := by
  induction m with
  | nil => simp [Memory.insert]
  | cons d m ih =>
    simp only [Memory.insert]
    split
    · simp
    · simp only [List.mem_cons, ih]
      tauto

@[simp] theorem Memory.read_write_same (m : Memory) (a : Nat) (v : Byte) : (Memory.write m a v).read a = v := by
  unfold Memory.write
  split
  · next h => rw [Memory.read_erase_same, h]
  · exact Memory.read_insert_same _ _ _ fun c hc => (Memory.erase_mem.1 hc).2

theorem Memory.read_write_ne (m : Memory) {a b : Nat} (v : Byte) (hab : b ≠ a) :
    (Memory.write m a v).read b = Memory.read m b := by
  unfold Memory.write
  split
  · exact Memory.read_erase_ne _ hab
  · rw [Memory.read_insert_ne _ _ hab, Memory.read_erase_ne _ hab]

theorem Memory.wf_nil (len : Nat) : Memory.wf len [] := by simp [Memory.wf]

theorem Memory.insert_pairwise {m : Memory} {a : Nat} {v : Byte} (hm : m.Pairwise fun c d => c.1 < d.1)
    (ha : ∀ c ∈ m, c.1 ≠ a) : (Memory.insert m a v).Pairwise fun c d => c.1 < d.1 := by
  induction m with
  | nil => simp [Memory.insert]
  | cons c m ih =>
    rw [List.forall_mem_cons] at ha
    rw [List.pairwise_cons] at hm
    simp only [Memory.insert]
    split
    · next h =>
      simp only [List.pairwise_cons, List.forall_mem_cons]
      exact ⟨⟨h, fun d hd => Nat.lt_trans h (hm.1 d hd)⟩, hm⟩
    · next h =>
      have hc : c.1 < a := lt_of_le_of_ne (Nat.le_of_not_lt h) ha.1
      rw [List.pairwise_cons]
      refine ⟨fun d hd => ?_, ih hm.2 ha.2⟩
      rcases Memory.insert_mem.1 hd with rfl | hd
      · exact hc
      · exact hm.1 d hd

/-- Every write inside a store of length `len` keeps the canonical form. -/
theorem Memory.wf_write {len : Nat} {m : Memory} {a : Nat} (v : Byte) (hm : Memory.wf len m) (ha : a < len) :
    Memory.wf len (Memory.write m a v) := by
  have he : Memory.wf len (Memory.erase m a) :=
    ⟨hm.1.filter _, fun c hc => hm.2 c (Memory.erase_mem.1 hc).1⟩
  unfold Memory.write
  split
  · exact he
  · next hv =>
    refine ⟨Memory.insert_pairwise he.1 fun c hc => (Memory.erase_mem.1 hc).2, fun c hc => ?_⟩
    rcases Memory.insert_mem.1 hc with rfl | hc
    · exact ⟨ha, hv⟩
    · exact he.2 c hc

theorem Memory.wf_mono {len len' : Nat} {m : Memory} (h : len ≤ len') (hm : Memory.wf len m) : Memory.wf len' m :=
  ⟨hm.1, fun c hc => ⟨Nat.lt_of_lt_of_le (hm.2 c hc).1 h, (hm.2 c hc).2⟩⟩

/-- Below its least listed offset a canonical list reads as unlisted. -/
theorem Memory.read_below {m : Memory} {a : Nat} (h : ∀ c ∈ m, a < c.1) : Memory.read m a = Memory.unlisted := by
  induction m with
  | nil => rfl
  | cons c m ih =>
    rw [List.forall_mem_cons] at h
    rw [Memory.read_cons, if_neg (Nat.ne_of_gt h.1), ih h.2]

/-- Beyond its length a canonical store reads as unlisted. -/
theorem Memory.read_beyond {len : Nat} {m : Memory} (hm : Memory.wf len m) {a : Nat} (ha : len ≤ a) :
    Memory.read m a = Memory.unlisted := by
  induction m with
  | nil => rfl
  | cons c m ih =>
    have hc := (hm.2 c List.mem_cons_self).1
    rw [Memory.read_cons, if_neg (by omega)]
    exact ih ⟨(List.pairwise_cons.1 hm.1).2, fun d hd => hm.2 d (List.mem_cons_of_mem _ hd)⟩

/-- Equal memories are equal data: two canonical lists that read alike at every offset are the same list. -/
theorem Memory.ext_of_wf {len len' : Nat} {m m' : Memory} (hm : Memory.wf len m) (hm' : Memory.wf len' m')
    (h : ∀ a, Memory.read m a = Memory.read m' a) : m = m' := by
  induction m generalizing m' with
  | nil =>
    cases m' with
    | nil => rfl
    | cons c m' =>
      have h1 := h c.1
      rw [Memory.read_cons, if_pos rfl] at h1
      exact absurd h1.symm (hm'.2 c List.mem_cons_self).2
  | cons c m ih =>
    have pc := List.pairwise_cons.1 hm.1
    cases m' with
    | nil =>
      have h1 := h c.1
      rw [Memory.read_cons, if_pos rfl] at h1
      exact absurd h1 (hm.2 c List.mem_cons_self).2
    | cons d m' =>
      have pd := List.pairwise_cons.1 hm'.1
      have hcv := (hm.2 c List.mem_cons_self).2
      have hdv := (hm'.2 d List.mem_cons_self).2
      have hk : c.1 = d.1 := by
        rcases Nat.lt_trichotomy c.1 d.1 with hlt | heq | hgt
        · have h1 := h c.1
          rw [Memory.read_cons, if_pos rfl, Memory.read_below (m := d :: m')] at h1
          · exact absurd h1 hcv
          · rw [List.forall_mem_cons]
            exact ⟨hlt, fun e he => Nat.lt_trans hlt (pd.1 e he)⟩
        · exact heq
        · have h1 := h d.1
          rw [Memory.read_cons (c := d), if_pos rfl, Memory.read_below (m := c :: m)] at h1
          · exact absurd h1.symm hdv
          · rw [List.forall_mem_cons]
            exact ⟨hgt, fun e he => Nat.lt_trans hgt (pc.1 e he)⟩
      have hv : c.2 = d.2 := by
        have h1 := h c.1
        rwa [Memory.read_cons, if_pos rfl, Memory.read_cons, if_pos hk.symm] at h1
      have hrest : m = m' := by
        refine ih ⟨pc.2, fun e he => hm.2 e (List.mem_cons_of_mem _ he)⟩
          ⟨pd.2, fun e he => hm'.2 e (List.mem_cons_of_mem _ he)⟩ fun a => ?_
        by_cases ha : c.1 = a
        · subst ha
          rw [Memory.read_below pc.1, Memory.read_below fun e he => hk ▸ pd.1 e he]
        · have h1 := h a
          rwa [Memory.read_cons, if_neg ha, Memory.read_cons, if_neg (hk ▸ ha)] at h1
      rw [hrest, Prod.ext hk hv]

end Sys2Proof.Machine
end

