-- ==== Sys2Proof/Laws/State.lean ====
section
/-! SUPPORT. One lemma per field and per update of the state, so that no later proof unfolds a record update. -/

namespace Sys2Proof.Machine

variable (s : State) (st : StoreId) (m : Memory) (off v : Nat) (b : Byte) (r : Reg) (e : AccessInfo)

@[simp] theorem State.setCells_cfg : (s.setCells st m).cfg = s.cfg := by cases st <;> rfl
@[simp] theorem State.setCells_halted : (s.setCells st m).halted = s.halted := by cases st <;> rfl
@[simp] theorem State.setCells_fault : (s.setCells st m).fault = s.fault := by cases st <;> rfl
@[simp] theorem State.setCells_mem_mem : (s.setCells .mem m).mem = m := rfl
@[simp] theorem State.setCells_mem_regfile : (s.setCells .mem m).regfile = s.regfile := rfl
@[simp] theorem State.setCells_regfile_mem : (s.setCells .regfile m).mem = s.mem := rfl
@[simp] theorem State.setCells_regfile_regfile : (s.setCells .regfile m).regfile = m := rfl
@[simp] theorem State.cells_setCells_same : (s.setCells st m).cells st = m := by cases st <;> rfl

theorem State.cells_setCells_ne {st st' : StoreId} (h : st' ≠ st) : (s.setCells st m).cells st' = s.cells st' := by
  cases st <;> cases st' <;> first | rfl | exact absurd rfl h

@[simp] theorem State.putByte_cfg : (s.putByte st off b).cfg = s.cfg := by simp [State.putByte]
@[simp] theorem State.putByte_halted : (s.putByte st off b).halted = s.halted := by simp [State.putByte]
@[simp] theorem State.putByte_fault : (s.putByte st off b).fault = s.fault := by simp [State.putByte]
@[simp] theorem State.putByte_mem_mem : (s.putByte .mem off b).mem = s.mem.write off b := rfl
@[simp] theorem State.putByte_mem_regfile : (s.putByte .mem off b).regfile = s.regfile := rfl
@[simp] theorem State.putByte_regfile_mem : (s.putByte .regfile off b).mem = s.mem := rfl
@[simp] theorem State.putByte_regfile_regfile : (s.putByte .regfile off b).regfile = s.regfile.write off b := rfl

@[simp] theorem State.putWord_cfg : (s.putWord st off v).cfg = s.cfg := by simp [State.putWord]
@[simp] theorem State.putWord_halted : (s.putWord st off v).halted = s.halted := by simp [State.putWord]
@[simp] theorem State.putWord_fault : (s.putWord st off v).fault = s.fault := by simp [State.putWord]
@[simp] theorem State.putWord_mem_regfile : (s.putWord .mem off v).regfile = s.regfile := rfl
@[simp] theorem State.putWord_regfile_mem : (s.putWord .regfile off v).mem = s.mem := rfl

@[simp] theorem State.setReg_cfg : (s.setReg r v).cfg = s.cfg := by simp [State.setReg]
@[simp] theorem State.setReg_mem : (s.setReg r v).mem = s.mem := rfl
@[simp] theorem State.setReg_halted : (s.setReg r v).halted = s.halted := by simp [State.setReg]
@[simp] theorem State.setReg_fault : (s.setReg r v).fault = s.fault := by simp [State.setReg]

@[simp] theorem State.takeError_cfg : (s.takeError e).cfg = s.cfg := rfl
@[simp] theorem State.takeError_mem : (s.takeError e).mem = s.mem := rfl
@[simp] theorem State.takeError_regfile : (s.takeError e).regfile = s.regfile := rfl
@[simp] theorem State.takeError_halted : (s.takeError e).halted = true := rfl
@[simp] theorem State.takeError_fault : (s.takeError e).fault = some { e with code := .outOfBounds } := rfl
@[simp] theorem State.takeError_byteAt : (s.takeError e).byteAt st off = s.byteAt st off := by cases st <;> rfl
@[simp] theorem State.takeError_getReg : (s.takeError e).getReg r = s.getReg r := rfl

@[simp] theorem State.resetCore_halted : s.resetCore.halted = false := rfl
@[simp] theorem State.resetCore_fault : s.resetCore.fault = none := rfl
@[simp] theorem State.clearRegs_mem : s.clearRegs.mem = s.mem := by simp [State.clearRegs, Reg.all]
@[simp] theorem State.clearRegs_cfg : s.clearRegs.cfg = s.cfg := by simp [State.clearRegs, Reg.all]
@[simp] theorem State.resetCore_mem : s.resetCore.mem = s.mem := by simp [State.resetCore]
@[simp] theorem State.resetCore_cfg : s.resetCore.cfg = s.cfg := by simp [State.resetCore]
@[simp] theorem State.resetCore_regfile : s.resetCore.regfile = s.clearRegs.regfile := by simp [State.resetCore]

@[simp] theorem State.powerOn_cfg (cfg : Config) : (State.powerOn cfg).cfg = cfg := rfl
@[simp] theorem State.powerOn_mem (cfg : Config) : (State.powerOn cfg).mem = [] := rfl
@[simp] theorem State.powerOn_regfile (cfg : Config) : (State.powerOn cfg).regfile = [] := rfl
@[simp] theorem State.powerOn_halted (cfg : Config) : (State.powerOn cfg).halted = false := rfl
@[simp] theorem State.powerOn_fault (cfg : Config) : (State.powerOn cfg).fault = none := rfl

/-- A store's length depends on the configuration alone. -/
theorem State.len_congr {s t : State} (h : t.cfg = s.cfg) (st : StoreId) : t.len st = s.len st := by
  cases st
  · exact congrArg Config.memLen h
  · rfl

/-- What main memory reads as depends on its bytes alone. -/
theorem State.byteAt_mem_congr {s t : State} (h : t.mem = s.mem) (a : Nat) : t.byteAt .mem a = s.byteAt .mem a := by
  simp [State.byteAt, State.cells, h]

/-- The registers depend on the register file's bytes alone. -/
theorem State.getReg_congr {s t : State} (h : t.regfile = s.regfile) (r : Reg) : t.getReg r = s.getReg r := by
  simp [State.getReg, State.wordAt, State.byteAt, State.cells, h]

end Sys2Proof.Machine
end

