-- ==== Sys2Proof/Laws/Ops.lean ====
section
/-! SUPPORT. One lemma for each shared operation of Machine/Ops.lean and Machine/Operands.lean that says everything it
does: the byte and word accessors, the registers, the fetch unit, the operand fetches. -/

namespace Sys2Proof.Machine

/-! ### Bytes and words of a store -/

@[simp] theorem State.byteAt_putByte_same (s : State) (st : StoreId) (a : Nat) (v : Byte) :
    (s.putByte st a v).byteAt st a = v := by
  simp [State.byteAt, State.putByte]

theorem State.byteAt_putByte_ne (s : State) (st : StoreId) {a b : Nat} (v : Byte) (h : b ≠ a) :
    (s.putByte st a v).byteAt st b = s.byteAt st b := by
  simp [State.byteAt, State.putByte, Memory.read_write_ne _ _ h]

theorem State.byteAt_putByte_store (s : State) {st st' : StoreId} (a b : Nat) (v : Byte) (h : st' ≠ st) :
    (s.putByte st a v).byteAt st' b = s.byteAt st' b := by
  simp [State.byteAt, State.putByte, State.cells_setCells_ne _ _ h]

/-- A word write puts the high byte at `off` and the low byte at `off + 1` (R54, R57), and touches no other byte. -/
theorem State.byteAt_putWord (s : State) (st : StoreId) (off v b : Nat) :
    (s.putWord st off v).byteAt st b =
      if b = off then hiByte (BitVec.ofNat 16 v) else if b = off + 1 then loByte (BitVec.ofNat 16 v)
      else s.byteAt st b := by
  unfold State.putWord
  by_cases h1 : b = off + 1
  · subst h1
    simp
  · rw [State.byteAt_putByte_ne _ _ _ h1]
    by_cases h0 : b = off
    · subst h0
      simp
    · rw [State.byteAt_putByte_ne _ _ _ h0]
      simp [h0, h1]

theorem State.byteAt_putWord_store (s : State) {st st' : StoreId} (off v b : Nat) (h : st' ≠ st) :
    (s.putWord st off v).byteAt st' b = s.byteAt st' b := by
  unfold State.putWord
  rw [State.byteAt_putByte_store _ _ _ _ h, State.byteAt_putByte_store _ _ _ _ h]

@[simp] theorem State.wordAt_putWord_same (s : State) (st : StoreId) (off v : Nat) :
    (s.putWord st off v).wordAt st off = BitVec.ofNat 16 v := by
  simp [State.wordAt, State.byteAt_putWord]

theorem State.wordAt_putWord_apart (s : State) (st : StoreId) {off off' : Nat} (v : Nat)
    (h : off' + 2 ≤ off ∨ off + 2 ≤ off') : (s.putWord st off v).wordAt st off' = s.wordAt st off' := by
  simp only [State.wordAt, State.byteAt_putWord]
  congr 1 <;> (rw [if_neg (by omega), if_neg (by omega)])

/-! ### The registers -/

theorem Reg.index_lt (r : Reg) : r.index < 10 := by cases r <;> decide

theorem Reg.index_inj {r r' : Reg} (h : r.index = r'.index) : r = r' := by
  cases r <;> cases r' <;> first | rfl | (exact absurd h (by decide))

/-- The name-to-index mapping and its inverse (R20, R23). -/
@[simp] theorem Reg.ofIndex_index (r : Reg) : Reg.ofIndex r.index = some r := by cases r <;> rfl

theorem Reg.ofIndex_none {n : Nat} (h : 10 ≤ n) : Reg.ofIndex n = none := by
  unfold Reg.ofIndex
  split <;> first | rfl | omega

theorem Reg.exists_index {n : Nat} (h : n < 10) : ∃ r : Reg, r.index = n ∧ Reg.ofIndex n = some r := by
  interval_cases n <;> exact ⟨_, rfl, rfl⟩

theorem Reg.offset_le (r : Reg) : r.offset ≤ 18 := by
  have := r.index_lt
  unfold Reg.offset
  omega

/-- A read by name never faults (R151). -/
theorem readU16_named (s : State) (r : Reg) : s.readU16 .regfile r.offset = .ok (s.getReg r) := by
  have := r.offset_le
  rw [State.readU16, if_pos (by simp only [State.len, regfileLen]; omega), State.getReg]

/-- A write by name never faults (R151). -/
theorem writeU16_named (s : State) (r : Reg) (v : Nat) : s.writeU16 .regfile r.offset v = .ok (s.setReg r v) := by
  have := r.offset_le
  rw [State.writeU16, if_pos (by simp only [State.len, regfileLen]; omega), State.setReg]

/-- A register reads what was last written to it, mod 2^16 (R22). -/
@[simp] theorem getReg_setReg_same (s : State) (r : Reg) (v : Nat) : (s.setReg r v).getReg r = BitVec.ofNat 16 v := by
  simp [State.setReg, State.getReg]

/-- A write to one register leaves every other (R20, R23). -/
theorem getReg_setReg_ne (s : State) {r r' : Reg} (v : Nat) (h : r' ≠ r) : (s.setReg r v).getReg r' = s.getReg r' := by
  have hi : r'.index ≠ r.index := fun h' => h (Reg.index_inj h')
  refine State.wordAt_putWord_apart _ _ _ ?_
  unfold Reg.offset
  omega

theorem getReg_setReg (s : State) (r r' : Reg) (v : Nat) :
    (s.setReg r v).getReg r' = if r' = r then BitVec.ofNat 16 v else s.getReg r' := by
  split
  · next h => rw [h, getReg_setReg_same]
  · next h => exact getReg_setReg_ne s v h

@[simp] theorem byteAt_mem_setReg (s : State) (r : Reg) (v a : Nat) :
    (s.setReg r v).byteAt .mem a = s.byteAt .mem a := rfl

@[simp] theorem wordAt_mem_setReg (s : State) (r : Reg) (v a : Nat) :
    (s.setReg r v).wordAt .mem a = s.wordAt .mem a := rfl

@[simp] theorem getReg_putByte_mem (s : State) (r : Reg) (a : Nat) (b : Byte) :
    (s.putByte .mem a b).getReg r = s.getReg r := rfl

@[simp] theorem len_setReg (s : State) (r : Reg) (v : Nat) (st : StoreId) : (s.setReg r v).len st = s.len st :=
  State.len_congr (State.setReg_cfg s v r) st

@[simp] theorem len_takeError (s : State) (e : AccessInfo) (st : StoreId) : (s.takeError e).len st = s.len st := by
  cases st <;> rfl

/-- After `RESET` every register is 0 (R37, R181). -/
@[simp] theorem getReg_resetCore (s : State) (r : Reg) : s.resetCore.getReg r = 0 := by
  rw [State.getReg_congr s.resetCore_regfile, State.clearRegs]
  cases r <;> simp [Reg.all, getReg_setReg]

@[simp] theorem getReg_powerOn (cfg : Config) (r : Reg) : (State.powerOn cfg).getReg r = 0 := by
  simp [State.getReg, State.wordAt, State.byteAt, State.cells, be16]

/-- A register write keeps the register file's canonical form. -/
theorem regfile_wf_setReg {s : State} (r : Reg) (v : Nat) (h : Memory.wf regfileLen s.regfile) :
    Memory.wf regfileLen (s.setReg r v).regfile := by
  have := r.offset_le
  have h20 : regfileLen = 20 := rfl
  exact Memory.wf_write _ (Memory.wf_write _ h (by omega)) (by omega)

/-- In a canonical register file a second write to a register makes the first one forgotten. -/
theorem setReg_setReg {s : State} (r : Reg) (v w : Nat) (h : Memory.wf regfileLen s.regfile) :
    (s.setReg r v).setReg r w = s.setReg r w := by
  have hr : ((s.setReg r v).setReg r w).regfile = (s.setReg r w).regfile := by
    refine Memory.ext_of_wf (regfile_wf_setReg r w (regfile_wf_setReg r v h)) (regfile_wf_setReg r w h) fun a => ?_
    have h1 := State.byteAt_putWord (s.setReg r v) .regfile r.offset w a
    have h2 := State.byteAt_putWord s .regfile r.offset w a
    have h3 := State.byteAt_putWord s .regfile r.offset v a
    change State.byteAt ((s.setReg r v).setReg r w) .regfile a = State.byteAt (s.setReg r w) .regfile a
    unfold State.setReg at *
    rw [h1, h2, h3]
    split_ifs <;> rfl
  calc (s.setReg r v).setReg r w
      = { (s.setReg r v).setReg r w with regfile := ((s.setReg r v).setReg r w).regfile } := rfl
    _ = { (s.setReg r v).setReg r w with regfile := (s.setReg r w).regfile } := by rw [hr]
    _ = s.setReg r w := rfl

/-! ### The accessors and the fetch unit -/

theorem readU8_ok {s : State} {st : StoreId} {off : Nat} (h : off < s.len st) :
    s.readU8 st off = .ok (s.byteAt st off) := if_pos h

theorem readU8_error {s : State} {st : StoreId} {off : Nat} (h : s.len st ≤ off) :
    s.readU8 st off = .error ⟨st, off, .one⟩ := if_neg (Nat.not_lt.2 h)

theorem readU16_ok {s : State} {st : StoreId} {off : Nat} (h : off + 2 ≤ s.len st) :
    s.readU16 st off = .ok (s.wordAt st off) := if_pos h

theorem readU16_error {s : State} {st : StoreId} {off : Nat} (h : s.len st < off + 2) :
    s.readU16 st off = .error ⟨st, off, .two⟩ := if_neg (Nat.not_le.2 h)

theorem writeU8_ok {s : State} {st : StoreId} {off : Nat} (v : Byte) (h : off < s.len st) :
    s.writeU8 st off v = .ok (s.putByte st off v) := if_pos h

theorem writeU8_error {s : State} {st : StoreId} {off : Nat} (v : Byte) (h : s.len st ≤ off) :
    s.writeU8 st off v = .error ⟨st, off, .one⟩ := if_neg (Nat.not_lt.2 h)

theorem writeU16_ok {s : State} {st : StoreId} {off : Nat} (v : Nat) (h : off + 2 ≤ s.len st) :
    s.writeU16 st off v = .ok (s.putWord st off v) := if_pos h

theorem writeU16_error {s : State} {st : StoreId} {off : Nat} (v : Nat) (h : s.len st < off + 2) :
    s.writeU16 st off v = .error ⟨st, off, .two⟩ := if_neg (Nat.not_le.2 h)

/-- `fetch8` in full: the byte at `ip` with `ip` advanced, or the error with the state as it was. -/
theorem fetch8_eq (s : State) :
    fetch8 s =
      if (s.getReg .ip).toNat < s.len .mem then
        .ok (s.byteAt .mem (s.getReg .ip).toNat) (s.setReg .ip ((s.getReg .ip).toNat + 1))
      else .error ⟨.mem, (s.getReg .ip).toNat, .one⟩ s := by
  unfold fetch8 State.readU8
  by_cases h : (s.getReg .ip).toNat < s.len .mem <;> simp [h]

/-- `fetch16` in full. -/
theorem fetch16_eq (s : State) :
    fetch16 s =
      if (s.getReg .ip).toNat + 2 ≤ s.len .mem then
        .ok (s.wordAt .mem (s.getReg .ip).toNat) (s.setReg .ip ((s.getReg .ip).toNat + 2))
      else .error ⟨.mem, (s.getReg .ip).toNat, .two⟩ s := by
  unfold fetch16 State.readU16
  by_cases h : (s.getReg .ip).toNat + 2 ≤ s.len .mem <;> simp [h]

theorem readIndexed_ok (s : State) {i : Byte} {r : Reg} (h : i.toNat = r.index) :
    readIndexed s i = .ok (s.getReg r) := by
  rw [readIndexed, h]
  exact readU16_named s r

theorem readIndexed_error (s : State) {i : Byte} (h : 10 ≤ i.toNat) :
    readIndexed s i = .error ⟨.regfile, 2 * i.toNat, .two⟩ :=
  readU16_error (by simp only [State.len, regfileLen]; omega)

/-! ### Access sequences -/

@[simp] theorem Access.bind_ok {α β : Type} (v : α) (s : State) (f : α → State → Access β) :
    (Access.ok v s).bind f = f v s := rfl

@[simp] theorem Access.bind_error {α β : Type} (e : AccessInfo) (s : State) (f : α → State → Access β) :
    (Access.error e s).bind f = .error e s := rfl

@[simp] theorem Access.map_ok {α β : Type} (f : α → β) (v : α) (s : State) : (Access.ok v s).map f = .ok (f v) s := rfl

@[simp] theorem Access.map_error {α β : Type} (f : α → β) (e : AccessInfo) (s : State) :
    (Access.error e s).map f = .error e s := rfl

end Sys2Proof.Machine
end

