-- ==== Sys2Proof/Laws/Step.lean ====
section
/-! SUPPORT. What an instruction, the execution of an opcode and a step can do, said once: `executeOpcode_cases` and
`step_cases` list every outcome with its condition, and later proofs split on those instead of unfolding. -/

namespace Sys2Proof.Machine

/-! ### The meanings -/

@[simp] theorem exec_movLitR1 (imm : Word) (s : State) :
    exec (.movLitR1 imm) s = .next (s.setReg .r1 imm.toNat) := rfl

@[simp] theorem exec_movLitR2 (imm : Word) (s : State) :
    exec (.movLitR2 imm) s = .next (s.setReg .r2 imm.toNat) := rfl

@[simp] theorem exec_unrecognized (op : Byte) (s : State) : exec (.unrecognized op) s = .next s := rfl

theorem exec_addRegReg_ok (s : State) {ra rb : Byte} {a b : Reg} (ha : ra.toNat = a.index) (hb : rb.toNat = b.index) :
    exec (.addRegReg ra rb) s = .next (s.setReg .acc (aluSum (s.getReg a) (s.getReg b))) := by
  simp [exec, execAddRegReg, readIndexed_ok s ha, readIndexed_ok s hb]

theorem exec_addRegReg_ra (s : State) {ra : Byte} (rb : Byte) (h : 10 ≤ ra.toNat) :
    exec (.addRegReg ra rb) s = .next (s.takeError ⟨.regfile, 2 * ra.toNat, .two⟩) := by
  simp [exec, execAddRegReg, readIndexed_error s h]

theorem exec_addRegReg_rb (s : State) {ra rb : Byte} (ha : ra.toNat < 10) (hb : 10 ≤ rb.toNat) :
    exec (.addRegReg ra rb) s = .next (s.takeError ⟨.regfile, 2 * rb.toNat, .two⟩) := by
  obtain ⟨a, ha, -⟩ := Reg.exists_index ha
  simp [exec, execAddRegReg, readIndexed_ok s ha.symm, readIndexed_error s hb]

/-! ### The execution of an opcode -/

/-- The address in `ip`, and the state with `ip` set to `n mod 2^16`. -/
theorem ip_setReg (s : State) (n : Nat) : ((s.setReg .ip n).getReg .ip).toNat = n % 65536 := by simp

/-- Every way `executeOpcode op s` ends, with its condition; `n` is the address in `ip` at its start (`ip0`). -/
inductive ExecuteCase (op : Byte) (s : State) (n : Nat) : State → Prop where
  | movLitR1 (k : dispatch s.cfg.opcodes op = .movLitR1) (fits : n + 2 ≤ s.len .mem) :
      ExecuteCase op s n ((s.setReg .ip (n + 2)).setReg .r1 (s.wordAt .mem n).toNat)
  | movLitR1Fault (k : dispatch s.cfg.opcodes op = .movLitR1) (out : s.len .mem < n + 2) :
      ExecuteCase op s n (s.takeError ⟨.mem, n, .two⟩)
  | movLitR2 (k : dispatch s.cfg.opcodes op = .movLitR2) (fits : n + 2 ≤ s.len .mem) :
      ExecuteCase op s n ((s.setReg .ip (n + 2)).setReg .r2 (s.wordAt .mem n).toNat)
  | movLitR2Fault (k : dispatch s.cfg.opcodes op = .movLitR2) (out : s.len .mem < n + 2) :
      ExecuteCase op s n (s.takeError ⟨.mem, n, .two⟩)
  | addFetchRa (k : dispatch s.cfg.opcodes op = .addRegReg) (out : s.len .mem ≤ n) :
      ExecuteCase op s n (s.takeError ⟨.mem, n, .one⟩)
  | addFetchRb (k : dispatch s.cfg.opcodes op = .addRegReg) (fits : n < s.len .mem)
      (out : s.len .mem ≤ (n + 1) % 65536) :
      ExecuteCase op s n ((s.setReg .ip (n + 1)).takeError ⟨.mem, (n + 1) % 65536, .one⟩)
  | addReadRa (k : dispatch s.cfg.opcodes op = .addRegReg) (fits : n < s.len .mem)
      (fits' : (n + 1) % 65536 < s.len .mem) (bad : 10 ≤ (s.byteAt .mem n).toNat) :
      ExecuteCase op s n
        (((s.setReg .ip (n + 1)).setReg .ip ((n + 1) % 65536 + 1)).takeError
          ⟨.regfile, 2 * (s.byteAt .mem n).toNat, .two⟩)
  | addReadRb (k : dispatch s.cfg.opcodes op = .addRegReg) (fits : n < s.len .mem)
      (fits' : (n + 1) % 65536 < s.len .mem) (good : (s.byteAt .mem n).toNat < 10)
      (bad : 10 ≤ (s.byteAt .mem ((n + 1) % 65536)).toNat) :
      ExecuteCase op s n
        (((s.setReg .ip (n + 1)).setReg .ip ((n + 1) % 65536 + 1)).takeError
          ⟨.regfile, 2 * (s.byteAt .mem ((n + 1) % 65536)).toNat, .two⟩)
  | add (a b : Reg) (k : dispatch s.cfg.opcodes op = .addRegReg) (fits : n < s.len .mem)
      (fits' : (n + 1) % 65536 < s.len .mem) (ha : (s.byteAt .mem n).toNat = a.index)
      (hb : (s.byteAt .mem ((n + 1) % 65536)).toNat = b.index) :
      ExecuteCase op s n
        (((s.setReg .ip (n + 1)).setReg .ip ((n + 1) % 65536 + 1)).setReg .acc
          (aluSum (((s.setReg .ip (n + 1)).setReg .ip ((n + 1) % 65536 + 1)).getReg a)
            (((s.setReg .ip (n + 1)).setReg .ip ((n + 1) % 65536 + 1)).getReg b)))
  | unrecognized (k : dispatch s.cfg.opcodes op = .unrecognized) : ExecuteCase op s n s

theorem fetchOperands_movLitR1 {op : Byte} {s : State} (k : dispatch s.cfg.opcodes op = .movLitR1) :
    fetchOperands op s = (fetch16 s).map Instr.movLitR1 := by simp [fetchOperands, k]

theorem fetchOperands_movLitR2 {op : Byte} {s : State} (k : dispatch s.cfg.opcodes op = .movLitR2) :
    fetchOperands op s = (fetch16 s).map Instr.movLitR2 := by simp [fetchOperands, k]

theorem fetchOperands_addRegReg {op : Byte} {s : State} (k : dispatch s.cfg.opcodes op = .addRegReg) :
    fetchOperands op s = (fetch8 s).bind fun ra s1 => (fetch8 s1).map fun rb => Instr.addRegReg ra rb := by
  simp [fetchOperands, k]

theorem fetchOperands_unrecognized {op : Byte} {s : State} (k : dispatch s.cfg.opcodes op = .unrecognized) :
    fetchOperands op s = .ok (.unrecognized op) s := by simp [fetchOperands, k]

/-- The execution of an opcode always answers a next state, and it is one of the cases. -/
theorem executeOpcode_total (op : Byte) (s : State) :
    ∃ t, executeOpcode op s = .next t ∧ ExecuteCase op s (s.getReg .ip).toNat t := by
  rcases k : dispatch s.cfg.opcodes op
  · simp only [executeOpcode, fetchOperands_movLitR1 k, fetch16_eq]
    by_cases h : (s.getReg .ip).toNat + 2 ≤ s.len .mem
    · simp only [h, if_true, Access.map_ok]
      exact ⟨_, rfl, .movLitR1 k h⟩
    · simp only [h, if_false, Access.map_error]
      exact ⟨_, rfl, .movLitR1Fault k (by omega)⟩
  · simp only [executeOpcode, fetchOperands_movLitR2 k, fetch16_eq]
    by_cases h : (s.getReg .ip).toNat + 2 ≤ s.len .mem
    · simp only [h, if_true, Access.map_ok]
      exact ⟨_, rfl, .movLitR2 k h⟩
    · simp only [h, if_false, Access.map_error]
      exact ⟨_, rfl, .movLitR2Fault k (by omega)⟩
  · simp only [executeOpcode, fetchOperands_addRegReg k, fetch8_eq s]
    by_cases h1 : (s.getReg .ip).toNat < s.len .mem
    swap
    · simp only [h1, if_false, Access.bind_error]
      exact ⟨_, rfl, .addFetchRa k (by omega)⟩
    simp only [h1, if_true, Access.bind_ok, fetch8_eq (s.setReg _ _), ip_setReg, len_setReg, byteAt_mem_setReg]
    by_cases h2 : ((s.getReg .ip).toNat + 1) % 65536 < s.len .mem
    swap
    · simp only [h2, if_false, Access.map_error]
      exact ⟨_, rfl, .addFetchRb k h1 (by omega)⟩
    simp only [h2, if_true, Access.map_ok]
    by_cases h3 : (s.byteAt .mem (s.getReg .ip).toNat).toNat < 10
    swap
    · exact ⟨_, exec_addRegReg_ra _ _ (by omega), .addReadRa k h1 h2 (by omega)⟩
    by_cases h4 : (s.byteAt .mem (((s.getReg .ip).toNat + 1) % 65536)).toNat < 10
    swap
    · exact ⟨_, exec_addRegReg_rb _ h3 (by omega), .addReadRb k h1 h2 h3 (by omega)⟩
    obtain ⟨a, ha, -⟩ := Reg.exists_index h3
    obtain ⟨b, hb, -⟩ := Reg.exists_index h4
    exact ⟨_, exec_addRegReg_ok _ ha.symm hb.symm, .add a b k h1 h2 ha.symm hb.symm⟩
  · simp only [executeOpcode, fetchOperands_unrecognized k]
    exact ⟨_, rfl, .unrecognized k⟩

theorem executeOpcode_cases {op : Byte} {s t : State} (h : executeOpcode op s = .next t) :
    ExecuteCase op s (s.getReg .ip).toNat t := by
  obtain ⟨u, hu, hc⟩ := executeOpcode_total op s
  rw [h, Host.Outcome.next.injEq] at hu
  exact hu ▸ hc

/-- Each case is what the execution answers when its condition holds. -/
theorem executeOpcode_of_case {op : Byte} {s t : State} {n : Nat} (hn : (s.getReg .ip).toNat = n)
    (h : ExecuteCase op s n t) : executeOpcode op s = .next t := by
  subst hn
  cases h with
  | movLitR1 k fits => simp [executeOpcode, fetchOperands_movLitR1 k, fetch16_eq, fits]
  | movLitR1Fault k out => simp [executeOpcode, fetchOperands_movLitR1 k, fetch16_eq, Nat.not_le.2 out]
  | movLitR2 k fits => simp [executeOpcode, fetchOperands_movLitR2 k, fetch16_eq, fits]
  | movLitR2Fault k out => simp [executeOpcode, fetchOperands_movLitR2 k, fetch16_eq, Nat.not_le.2 out]
  | addFetchRa k out => simp [executeOpcode, fetchOperands_addRegReg k, fetch8_eq s, Nat.not_lt.2 out]
  | addFetchRb k fits out =>
    simp [executeOpcode, fetchOperands_addRegReg k, fetch8_eq s, fits, fetch8_eq (s.setReg _ _), Nat.not_lt.2 out]
  | addReadRa k fits fits' bad =>
    simp [executeOpcode, fetchOperands_addRegReg k, fetch8_eq s, fits, fetch8_eq (s.setReg _ _), fits',
      exec_addRegReg_ra _ _ bad]
  | addReadRb k fits fits' good bad =>
    simp [executeOpcode, fetchOperands_addRegReg k, fetch8_eq s, fits, fetch8_eq (s.setReg _ _), fits',
      exec_addRegReg_rb _ good bad]
  | add a b k fits fits' ha hb =>
    simp [executeOpcode, fetchOperands_addRegReg k, fetch8_eq s, fits, fetch8_eq (s.setReg _ _), fits',
      exec_addRegReg_ok _ ha hb]
  | unrecognized k => simp [executeOpcode, fetchOperands_unrecognized k]

/-! ### A step -/

theorem step_halted {s : State} (h : s.halted = true) : step s = .fault (.coreHalted s.fault) := by
  simp [step, coreStep, h]

theorem step_fetch_error {s : State} (h : s.halted = false) (hout : s.len .mem ≤ (s.getReg .ip).toNat) :
    step s = .next (s.takeError ⟨.mem, (s.getReg .ip).toNat, .one⟩) := by
  simp [step, coreStep, h, fetch8_eq, Nat.not_lt.2 hout]

theorem step_fetched {s : State} (h : s.halted = false) (hin : (s.getReg .ip).toNat < s.len .mem) :
    step s =
      executeOpcode (s.byteAt .mem (s.getReg .ip).toNat) (s.setReg .ip ((s.getReg .ip).toNat + 1)) := by
  simp [step, coreStep, h, fetch8_eq, hin]

/-- Every way a step ends in a next state: the opcode fetch fails, or the fetched opcode is executed. -/
theorem step_cases {s t : State} (h : step s = .next t) :
    s.halted = false ∧
      ((s.len .mem ≤ (s.getReg .ip).toNat ∧ t = s.takeError ⟨.mem, (s.getReg .ip).toNat, .one⟩) ∨
        ((s.getReg .ip).toNat < s.len .mem ∧
          ExecuteCase (s.byteAt .mem (s.getReg .ip).toNat) (s.setReg .ip ((s.getReg .ip).toNat + 1))
            (((s.getReg .ip).toNat + 1) % 65536) t)) := by
  cases hh : s.halted with
  | true => simp [step_halted hh] at h
  | false =>
    refine ⟨rfl, ?_⟩
    rcases Nat.lt_or_ge (s.getReg .ip).toNat (s.len .mem) with hin | hout
    · rw [step_fetched hh hin] at h
      exact .inr ⟨hin, ip_setReg s _ ▸ executeOpcode_cases h⟩
    · rw [step_fetch_error hh hout, Host.Outcome.next.injEq] at h
      exact .inl ⟨hout, h.symm⟩

end Sys2Proof.Machine
end

