-- ==== Sys2Proof/Laws/Command.lean ====
section
/-! SUPPORT. One lemma for each shared operation of the command interface. -/

namespace Sys2Proof.Machine

theorem whenRunning_halted {s : State} (reply : Reply) (h : s.halted = true) :
    whenRunning s reply = .next (s, .err (.coreHalted s.fault)) := by simp [whenRunning, h]

@[simp] theorem whenRunning_running {s : State} (reply : Reply) (h : s.halted = false) :
    whenRunning s reply = reply := by simp [whenRunning, h]

@[simp] theorem replyOutcome_next (s t : State) : replyOutcome s (.next t) = .next (t, t.endResponse) := rfl

theorem endResponse_running {t : State} (h : t.halted = false) : t.endResponse = .ok := by
  simp [State.endResponse, h]

@[simp] theorem endResponse_takeError (t : State) (e : AccessInfo) :
    (t.takeError e).endResponse = .err (.outOfBounds e) := rfl

@[simp] theorem replyAccess_ok {α : Type} (value : α → Response) (v : α) (t : State) :
    replyAccess value (.ok v t) = .next (t, value v) := rfl

@[simp] theorem replyAccess_error {α : Type} (value : α → Response) (e : AccessInfo) (t : State) :
    replyAccess value (.error e t) = .next (t.takeError e, .err (.outOfBounds e)) := rfl

@[simp] theorem replyRead_ok {α : Type} (s : State) (value : α → Response) (v : α) :
    replyRead s value (.ok v) = .next (s, value v) := rfl

@[simp] theorem replyRead_error {α : Type} (s : State) (value : α → Response) (e : AccessInfo) :
    replyRead s value (.error e) = .next (s, .err (.outOfBounds e)) := rfl

@[simp] theorem replyWrite_ok (s t : State) : replyWrite s (.ok t) = .next (t, .ok) := rfl

@[simp] theorem replyWrite_error (s : State) (e : AccessInfo) :
    replyWrite s (.error e) = .next (s, .err (.outOfBounds e)) := rfl

theorem performGetReg_index (r : Reg) (s : State) : performGetReg r.index s = .next (s, .okWord (s.getReg r)) := by
  simp [performGetReg]

theorem performGetReg_unknown {sel : Nat} (h : 10 ≤ sel) (s : State) :
    performGetReg sel s = .next (s, .err (.unknownRegister sel)) := by
  simp [performGetReg, Reg.ofIndex_none h]

theorem performSetReg_index (r : Reg) (v : Nat) (s : State) :
    performSetReg r.index v s = .next (s.setReg r v, .ok) := by
  simp [performSetReg]

theorem performSetReg_unknown {sel : Nat} (h : 10 ≤ sel) (v : Nat) (s : State) :
    performSetReg sel v s = .next (s, .err (.unknownRegister sel)) := by
  simp [performSetReg, Reg.ofIndex_none h]

/-- What a `STEP` command can answer: the refusal of a halted core, or the step with its response. -/
theorem perform_step_cases {s t : State} {r : Response} (h : perform .step s = .next (t, r)) :
    (s.halted = true ∧ t = s ∧ r = .err (.coreHalted s.fault)) ∨
      (s.halted = false ∧ step s = .next t ∧ r = t.endResponse) := by
  cases hh : s.halted with
  | true =>
    simp only [perform, step_halted hh, replyOutcome, Host.Outcome.next.injEq, Prod.mk.injEq] at h
    exact .inl ⟨rfl, h.1.symm, h.2.symm⟩
  | false =>
    simp only [perform] at h
    cases hs : step s with
    | next u =>
      simp only [hs, replyOutcome_next, Host.Outcome.next.injEq, Prod.mk.injEq] at h
      exact .inr ⟨rfl, h.1 ▸ rfl, h.1 ▸ h.2.symm⟩
    | fault f =>
      rcases Nat.lt_or_ge (s.getReg .ip).toNat (s.len .mem) with hin | hout
      · obtain ⟨u, hu, -⟩ := executeOpcode_total (s.byteAt .mem (s.getReg .ip).toNat)
          (s.setReg .ip ((s.getReg .ip).toNat + 1))
        rw [step_fetched hh hin, hu] at hs
        exact absurd hs (by simp)
      · rw [step_fetch_error hh hout] at hs
        exact absurd hs (by simp)
    | refused x => simp [hs, replyOutcome] at h

/-- What an `EXEC` command can answer. -/
theorem perform_exec_cases {op : Byte} {s t : State} {r : Response} (h : perform (.exec op) s = .next (t, r)) :
    (s.halted = true ∧ t = s ∧ r = .err (.coreHalted s.fault)) ∨
      (s.halted = false ∧ executeOpcode op s = .next t ∧ r = t.endResponse) := by
  cases hh : s.halted with
  | true =>
    simp only [perform, whenRunning_halted _ hh, Host.Outcome.next.injEq, Prod.mk.injEq] at h
    exact .inl ⟨rfl, h.1.symm, h.2.symm⟩
  | false =>
    obtain ⟨u, hu, -⟩ := executeOpcode_total op s
    simp only [perform, whenRunning_running _ hh, hu, replyOutcome_next, Host.Outcome.next.injEq, Prod.mk.injEq] at h
    exact .inr ⟨rfl, h.1 ▸ hu, h.1 ▸ h.2.symm⟩

end Sys2Proof.Machine
end

