-- ==== Sys2Proof/Laws/Invariant.lean ====
section
/-! SUPPORT. The shared operations keep the invariant of Safety.lean; the frames of the shared operations; and the
shared operations keep the agreement of two states within the core's reach. -/

namespace Sys2Proof.Machine

theorem genuine_of_cfg {s t : State} (h : t.cfg = s.cfg) {r : FaultRecord} (hr : r.Genuine s) : r.Genuine t :=
  ⟨hr.1, State.len_congr h r.store ▸ hr.2⟩

/-- A register write keeps the invariant. -/
theorem State.Inv.setReg {s : State} (h : s.Inv) (r : Reg) (v : Nat) : (s.setReg r v).Inv where
  opcodes := by simpa using h.opcodes
  mem := by simpa using h.mem
  regfile := by
    rw [len_setReg]
    exact regfile_wf_setReg r v h.regfile
  latch := by simpa using h.latch
  record := fun f hf => genuine_of_cfg (State.setReg_cfg s v r) (h.record f (by simpa using hf))

/-- Latching an access out of range keeps the invariant. -/
theorem State.Inv.takeError {s : State} (h : s.Inv) {e : AccessInfo} (he : s.len e.store < e.offset + e.width.bytes) :
    (s.takeError e).Inv where
  opcodes := h.opcodes
  mem := by simpa using h.mem
  regfile := by simpa using h.regfile
  latch := rfl
  record := fun f hf => by
    rw [State.takeError_fault, Option.some.injEq] at hf
    subst hf
    exact ⟨rfl, by simpa using he⟩

/-- A write of a main-memory byte in range keeps the invariant. -/
theorem State.Inv.putByte_mem {s : State} (h : s.Inv) {a : Nat} (b : Byte) (ha : a < s.len .mem) :
    (s.putByte .mem a b).Inv where
  opcodes := by simpa using h.opcodes
  mem := by
    rw [State.len_congr (State.putByte_cfg s .mem a b)]
    exact Memory.wf_write b h.mem ha
  regfile := h.regfile
  latch := by simpa using h.latch
  record := fun f hf =>
    genuine_of_cfg (State.putByte_cfg s .mem a b) (h.record f (by simpa using hf))

theorem State.Inv.foldl_setReg (rs : List Reg) {s : State} (h : s.Inv) :
    (rs.foldl (fun t r => t.setReg r 0) s).Inv := by
  induction rs generalizing s with
  | nil => exact h
  | cons r rs ih => exact ih (h.setReg r 0)

/-- Writing 0 to every register and clearing the latch keeps the invariant. -/
theorem State.Inv.resetCore {s : State} (h : s.Inv) : s.resetCore.Inv := by
  have hr : Memory.wf regfileLen s.clearRegs.regfile := (h.foldl_setReg Reg.all).regfile
  have hm : Memory.wf s.cfg.memLen s.mem := h.mem
  refine ⟨by simpa using h.opcodes, ?_, ?_, by simp, by simp⟩
  · simpa [State.len] using hm
  · rw [State.resetCore_regfile]
    exact hr

/-- Nothing but one register changes when it is written. -/
theorem onlyRegs_setReg (s : State) (r : Reg) (v : Nat) : OnlyRegs [r] s (s.setReg r v) :=
  ⟨⟨by simp, fun _ => rfl, fun r' h => getReg_setReg_ne s v (by simpa using h)⟩, by simp, by simp⟩

/-- Nothing but the latch changes when an error is taken. -/
theorem onlyLatch_takeError (s : State) (e : AccessInfo) :
    OnlyRegsAndLatch [] s (s.takeError e) ∧ Latched (s.takeError e) e :=
  ⟨⟨rfl, fun _ => rfl, fun _ _ => rfl⟩, rfl, rfl⟩

theorem OnlyRegsAndLatch.trans {rs rs' : List Reg} {s t u : State} (h : OnlyRegsAndLatch rs s t)
    (h' : OnlyRegsAndLatch rs' t u) : OnlyRegsAndLatch (rs ++ rs') s u := by
  refine ⟨h'.1.trans h.1, fun a => (h'.2.1 a).trans (h.2.1 a), fun r hr => ?_⟩
  rw [List.mem_append, not_or] at hr
  exact (h'.2.2 r hr.2).trans (h.2.2 r hr.1)

theorem OnlyRegs.trans {rs rs' : List Reg} {s t u : State} (h : OnlyRegs rs s t) (h' : OnlyRegs rs' t u) :
    OnlyRegs (rs ++ rs') s u :=
  ⟨h.1.trans h'.1, h'.2.1.trans h.2.1, h'.2.2.trans h.2.2⟩

theorem OnlyRegsAndLatch.mono {rs rs' : List Reg} {s t : State} (h : OnlyRegsAndLatch rs s t) (hs : rs ⊆ rs') :
    OnlyRegsAndLatch rs' s t := ⟨h.1, h.2.1, fun r hr => h.2.2 r fun h' => hr (hs h')⟩

theorem OnlyRegs.mono {rs rs' : List Reg} {s t : State} (h : OnlyRegs rs s t) (hs : rs ⊆ rs') : OnlyRegs rs' s t :=
  ⟨h.1.mono hs, h.2⟩

/-! ### Agreement within the core's reach -/

theorem SameWithinReach.getReg {s t : State} (h : SameWithinReach s t) (r : Reg) : t.getReg r = s.getReg r :=
  State.getReg_congr h.regfile r

theorem SameWithinReach.len {s t : State} (h : SameWithinReach s t) (st : StoreId) : t.len st = s.len st :=
  State.len_congr h.cfg st

/-- The same register write on both sides keeps the agreement. -/
theorem SameWithinReach.setReg {s t : State} (h : SameWithinReach s t) (r : Reg) (v : Nat) :
    SameWithinReach (s.setReg r v) (t.setReg r v) where
  cfg := by simp [h.cfg]
  regfile := by simp [State.setReg, State.putWord, h.regfile]
  latch := by simpa [SameLatch] using h.latch
  mem := by simpa using h.mem

/-- The same error taken on both sides keeps the agreement. -/
theorem SameWithinReach.takeError {s t : State} (h : SameWithinReach s t) (e : AccessInfo) :
    SameWithinReach (s.takeError e) (t.takeError e) :=
  ⟨h.cfg, h.regfile, ⟨rfl, rfl⟩, by simpa using h.mem⟩

/-- Both sides read the same word wherever a 16-bit address can point. -/
theorem SameWithinReach.wordAt {s t : State} (h : SameWithinReach s t) {a : Nat} (ha : a < 65536) :
    t.wordAt .mem a = s.wordAt .mem a := by
  simp only [State.wordAt, h.mem a (by omega), h.mem (a + 1) (by omega)]

end Sys2Proof.Machine
end

