-- ==== Sys2Proof/Laws/PerInstr.lean ====
section
/-! SUPPORT. The lemma family that LAWS.json names, one lemma per constructor of Instr. -/

namespace Sys2Proof.Laws.EncodedLength

/-- The encoding of a well-formed instruction is as long as its opcode byte alone says (spec/30_encoding.md R80, R86). -/
def Statement (i : Instr) : Prop :=
  ∀ oc : Opcodes, oc.Distinct → i.WellFormed oc →
    ∃ op operands, encode oc i = op :: operands ∧ (encode oc i).length = (dispatch oc op).length

theorem movLitR1 (imm : Word) : Statement (.movLitR1 imm) := fun oc _ _ =>
  ⟨_, _, rfl, by rw [dispatch_movLitR1]; rfl⟩

theorem movLitR2 (imm : Word) : Statement (.movLitR2 imm) := fun _ h _ =>
  ⟨_, _, rfl, by rw [dispatch_movLitR2 h]; rfl⟩

theorem addRegReg (ra rb : Byte) : Statement (.addRegReg ra rb) := fun _ h _ =>
  ⟨_, _, rfl, by rw [dispatch_addRegReg h]; rfl⟩

theorem unrecognized (op : Byte) : Statement (.unrecognized op) := fun _ _ h =>
  ⟨_, _, rfl, by rw [dispatch_unrecognized h]; rfl⟩

end Sys2Proof.Laws.EncodedLength
end

