-- ==== Sys2Proof/Tests/Slice0.lean ====
section
/-! SUPPORT. The model's own tests. Expected results are those of spec/95_test_vectors.md (S<n>, V<n>, P<n>) and of the
spec's encodings; then, for every statement of Certificates/Slice0/Obligations.lean with hypotheses, a state that meets
them, at the boundary values of each clause. -/

namespace Sys2Proof.Tests

open Sys2Proof Sys2Proof.Machine

/-! ### Helpers -/

/-- A core with the default opcodes, `n` bytes of memory, bytes from offset `pos` on, and `ip` = `start`. -/
def core (n pos : Nat) (bytes : List Byte) (start : Nat) : State :=
  ((State.powerOn ⟨n, Opcodes.standard⟩).putBytes (placeAt pos bytes)).setReg .ip start

/-- That core after it has latched an error at offset 3. -/
def stopped : State := (core 4 0 [0xAA, 0xBB, 0xCC, 0xDD] 3).takeError ⟨.mem, 3, .two⟩

/-- The outcome is a next state that meets `p`. -/
def ends {α : Type} (o : Host.Outcome α Fault Refusal) (p : α → Bool) : Bool :=
  match o with
  | .next t => p t
  | .fault _ => false
  | .refused _ => false

theorem ends_next {α : Type} {o : Host.Outcome α Fault Refusal} {p : α → Bool} (h : ends o p = true) :
    ∃ t, o = .next t ∧ p t = true := by
  cases o <;> simp_all [ends]

/-- Registers and latch as a test compares them. -/
def holds (t : State) (regs : List (Reg × Word)) (halted : Bool) : Bool :=
  decide (regs.all (fun x => t.getReg x.1 == x.2) = true ∧ t.halted = halted)

/-- The latched record. -/
def latched (t : State) (e : AccessInfo) : Bool :=
  decide (t.halted = true ∧ t.fault = some { e with code := .outOfBounds })

/-! ### Well-formedness refuses every ill-formed term -/

theorem test_distinct_refuses_r1_r2 : ¬ (⟨0x10, 0x10, 0x12⟩ : Opcodes).Distinct := by decide
theorem test_distinct_refuses_r1_add : ¬ (⟨0x10, 0x11, 0x10⟩ : Opcodes).Distinct := by decide
theorem test_distinct_refuses_r2_add : ¬ (⟨0x10, 0x11, 0x11⟩ : Opcodes).Distinct := by decide
theorem test_config_refuses : ¬ (⟨65536, ⟨0, 0, 1⟩⟩ : Config).WellFormed := by decide
theorem test_wellFormed_refuses_opcode_r1 : ¬ (Instr.unrecognized 0x10).WellFormed Opcodes.standard := by decide
theorem test_wellFormed_refuses_opcode_r2 : ¬ (Instr.unrecognized 0x11).WellFormed Opcodes.standard := by decide
theorem test_wellFormed_refuses_opcode_add : ¬ (Instr.unrecognized 0x12).WellFormed Opcodes.standard := by decide
theorem test_wf_refuses_disorder : ¬ Memory.wf 20 [(3, 1), (2, 1)] := by decide
theorem test_wf_refuses_repeat : ¬ Memory.wf 20 [(3, 1), (3, 2)] := by decide
theorem test_wf_refuses_listed_zero : ¬ Memory.wf 20 [(3, 0)] := by decide
theorem test_wf_refuses_beyond_length : ¬ Memory.wf 20 [(20, 1)] := by decide

/-! ### Decoding, with bytes written out from the formats of R81 -/

/-- S5: `[MOV_LIT_R1, 0x12, 0x34]`. -/
theorem test_decode_movLitR1 : decode Opcodes.standard [0b00010000, 0b00010010, 0b00110100] =
    .ok (.movLitR1 0x1234, []) := by decide
/-- S6: `[MOV_LIT_R2, 0xAB, 0xCD]`. -/
theorem test_decode_movLitR2 : decode Opcodes.standard [0b00010001, 0b10101011, 0b11001101] =
    .ok (.movLitR2 0xABCD, []) := by decide
/-- S7: `[ADD_REG_REG, 2, 3]`; an index of 255 decodes too (R83). -/
theorem test_decode_addRegReg : decode Opcodes.standard [0b00010010, 0b00000010, 0b00000011] =
    .ok (.addRegReg 2 3, []) := by decide
theorem test_decode_addRegReg_255 : decode Opcodes.standard [0x12, 0xFF, 0x0A] = .ok (.addRegReg 255 10, []) := by decide
/-- P5: `00`, `FF` and `13` are unrecognized opcodes of one byte each (R87). -/
theorem test_decode_unrecognized : decode Opcodes.standard [0x13, 0x11] = .ok (.unrecognized 0x13, [0x11]) := by decide
theorem test_decode_no_bytes : decode Opcodes.standard [] = .error .noOpcode := by decide
theorem test_decode_truncated : decode Opcodes.standard [0x12, 0x02] = .error (.missingOperands 0x12) := by decide
/-- An opcode parameter may be 0x00 (R8). -/
theorem test_decode_zero_opcode : decode ⟨0, 1, 2⟩ [0x00, 0x12, 0x34] = .ok (.movLitR1 0x1234, []) := by decide
theorem test_encode_movLitR1 : encode Opcodes.standard (.movLitR1 0x1234) = [0x10, 0x12, 0x34] := by decide
theorem test_encode_addRegReg : encode Opcodes.standard (.addRegReg 2 3) = [0x12, 2, 3] := by decide

/-! ### Steps -/

/-- V20: the literal's second byte is at offset 0x10000, and `ip` becomes 1. -/
theorem test_movLitR1_across_top : ends (step (core 65537 0xFFFE [0x10, 0x12, 0x34] 0xFFFE))
    (holds · [(.r1, 0x1234), (.ip, 1), (.r2, 0), (.acc, 0)] false) = true := by decide
/-- V18: the literal fetch fails; `r1` stays and `ip` is past the opcode. -/
theorem test_movLitR1_truncated : ends (step ((core 4 2 [0x10, 0x12] 2).setReg .r1 0x7777))
    (fun t => holds t [(.r1, 0x7777), (.ip, 3)] true && latched t ⟨.mem, 3, .two⟩) = true := by decide
/-- S6. -/
theorem test_movLitR2_source : ends (step (core 16 0 [0x11, 0xAB, 0xCD] 0))
    (holds · [(.r2, 0xABCD), (.ip, 3), (.r1, 0)] false) = true := by decide
/-- V19: `ip` wraps to 0. -/
theorem test_movLitR2_wraps_ip : ends (step (core 65536 0xFFFD [0x11, 0xBE, 0xEF] 0xFFFD))
    (holds · [(.r2, 0xBEEF), (.ip, 0)] false) = true := by decide
/-- V26: `ip` is read after both index fetches. -/
theorem test_add_reads_ip_after_fetches : ends (step (core 32 0x10 [0x12, 0, 0] 0x10))
    (holds · [(.acc, 0x0026), (.ip, 0x13)] false) = true := by decide
/-- V29: of two bad indices the first is reported, past the whole instruction. -/
theorem test_add_first_bad_index : ends (step (core 16 0 [0x12, 10, 255] 0))
    (fun t => holds t [(.acc, 0), (.ip, 3)] true && latched t ⟨.regfile, 20, .two⟩) = true := by decide
/-- V11. -/
theorem test_unrecognized_zero : ends (step (core 4 0 [] 0)) (holds · [(.ip, 1), (.acc, 0)] false) = true := by decide
/-- V13: `ip` wraps. -/
theorem test_unrecognized_wraps_ip : ends (step (core 65536 0xFFFF [0x13] 0xFFFF)) (holds · [(.ip, 0)] false) = true := by
  decide
/-- V35: the operands are fetched across the wrap. -/
theorem test_step_operands_across_wrap :
    ends (step (((core 65536 0 [0x01, 0x00] 0xFFFF).putByte .mem 0xFFFF 0x12).setReg .acc 7))
      (holds · [(.acc, 9), (.ip, 2)] false) = true := by decide
/-- The interface's loader at reset: the placed word is the first instruction that runs. -/
theorem test_withFetchWord_at_reset : ends (step (State.reset.withFetchWord 24 0x341210))
    (holds · [(.r1, 0x1234), (.ip, 3)] false) = true := by decide

/-! ### Host commands -/

/-- V14: no opcode fetch under `EXEC`. -/
theorem test_exec_command : ends (perform (.exec 0x10) (core 8 4 [0x12, 0x34] 4))
    (fun x => holds x.1 [(.r1, 0x1234), (.ip, 6)] false && decide (x.2 = .ok)) = true := by decide
/-- V8. -/
theorem test_fetch16_across_top : ends (perform .fetch16 (core 65537 0xFFFF [0xAB, 0xCD] 0xFFFF))
    (fun x => holds x.1 [(.ip, 1)] false && decide (x.2 = .okWord 0xABCD)) = true := by decide
/-- V1. -/
theorem test_fetch_sequence :
    ends (performAll [.fetch8, .fetch16, .fetch16] (core 4 0 [0xAA, 0xBB, 0xCC, 0xDD] 0))
      (fun x => holds x.1 [(.ip, 3)] true &&
        decide (x.2 = [.okByte 0xAA, .okWord 0xBBCC, .err (.outOfBounds ⟨.mem, 3, .two⟩)])) = true := by decide
/-- V15. -/
theorem test_step_while_halted : ends (perform .step stopped)
    (fun x => decide (x = (stopped, .err (.coreHalted (some ⟨⟨.mem, 3, .two⟩, .outOfBounds⟩))))) = true := by decide
/-- V45: a 17-bit value is truncated. -/
theorem test_setReg_truncates : ends (perform (.setReg 1 0x10005) State.reset)
    (fun x => holds x.1 [(.acc, 5), (.ip, 0), (.r1, 0)] false && decide (x.2 = .ok)) = true := by decide
/-- V39. -/
theorem test_setReg_unknown : ends (perform (.setReg 12 1) State.reset)
    (fun x => decide (x = (State.reset, .err (.unknownRegister 12)))) = true := by decide
/-- V41: big-endian. -/
theorem test_memWrite16_big_endian : ends (performAll [.memWrite16 2 0x1234, .memRead8 2, .memRead8 3] (core 4 0 [] 0))
    (fun x => decide (x.2 = [.ok, .okByte 0x12, .okByte 0x34])) = true := by decide
/-- V40: nothing changes and the core is not halted. -/
theorem test_memWrite16_out_of_range : ends (perform (.memWrite16 3 0x1234) (core 4 0 [0x11] 0))
    (fun x => decide (x = (core 4 0 [0x11] 0, .err (.outOfBounds ⟨.mem, 3, .two⟩)))) = true := by decide
/-- V44. -/
theorem test_reset_command : ends (perform .reset stopped)
    (fun x => holds x.1 [(.ip, 0), (.acc, 0)] false && decide (x.1.mem = stopped.mem ∧ x.2 = .ok)) = true := by decide
/-- V43. -/
theorem test_debug_while_halted : ends (perform .debug stopped)
    (fun x => decide (x.1 = stopped) && (match x.2 with | .okRegs l => l.map Prod.fst == Reg.all | _ => false)) = true := by
  decide
/-- The text of P1's third line, by register name (R89), and its bytes. -/
theorem test_parse_addRegReg : parseAssembly ".org 0x06\nADD_REG_REG r1, r2 ; 6: 12 02 03" =
    some [.org 6, .addRegReg (.name .r1) (.name .r2)] := by decide
theorem test_assemble_org : assemble Opcodes.standard 0 [.movLitR1 0x1234, .org 6, .addRegReg (.name .r1) (.name .r2)] =
    [(0, 0x10), (1, 0x12), (2, 0x34), (6, 0x12), (7, 2), (8, 3)] := by decide
theorem test_parse_refuses_nop : parseAssembly "NOP" = none := by decide

/-! ### Witnesses of the statements' hypotheses -/

/-- Boundary configurations: no memory, and an opcode 0. -/
theorem witness_RegistersAreZeroAfterReset :
    Config.standard.WellFormed ∧ (⟨0, ⟨0, 1, 2⟩⟩ : Config).WellFormed ∧ 19 < 20 := by decide

theorem witness_PowerOnRefusesExactlyEqualOpcodes :
    ((0x10 : Byte) = 0x11 ∨ (0x10 : Byte) = 0x10 ∨ (0x11 : Byte) = 0x10) ∧
      ¬ ((0 : Byte) = 0xFF ∨ (0 : Byte) = 0x12 ∨ (0xFF : Byte) = 0x12) := by decide

theorem witness_OpcodeMapIsComplete : Opcodes.standard.Distinct ∧ (0x13 : Byte) ≠ Opcodes.standard.movLitR1 ∧
    (0x13 : Byte) ≠ Opcodes.standard.movLitR2 ∧ (0x13 : Byte) ≠ Opcodes.standard.addRegReg := by decide

theorem witness_DecodeOfEncodeIsIdentity : Opcodes.standard.Distinct ∧
    (Instr.unrecognized 0x0F).WellFormed Opcodes.standard ∧ (Instr.movLitR1 0xFFFF).WellFormed Opcodes.standard ∧
    (Instr.movLitR2 0).WellFormed Opcodes.standard ∧ (Instr.addRegReg 0 255).WellFormed Opcodes.standard := by decide

theorem witness_EncodeOfDecodeIsIdentity :
    decode Opcodes.standard [0x12, 0xFF, 0x00, 0x99] = .ok (.addRegReg 255 0, [0x99]) := by decide

theorem witness_AssembledStatementsDecode : (⟨0xFF, 0, 1⟩ : Opcodes).Distinct := by decide

/-- The last byte, the first beyond; the last word, the first beyond: of both stores. -/
theorem witness_StoreReadsAreBoundedAndBigEndian :
    (3 < (core 4 0 [] 0).len .mem ∧ (core 4 0 [] 0).len .mem ≤ 4 ∧ 2 + 2 ≤ (core 4 0 [] 0).len .mem ∧
      (core 4 0 [] 0).len .mem < 3 + 2) ∧
    (19 < (core 4 0 [] 0).len .regfile ∧ (core 4 0 [] 0).len .regfile ≤ 20 ∧
      18 + 2 ≤ (core 4 0 [] 0).len .regfile ∧ (core 4 0 [] 0).len .regfile < 19 + 2) := by decide

theorem witness_StoreWritesAreBoundedAndBigEndian :
    0 < (core 1 0 [] 0).len .mem ∧ (core 1 0 [] 0).len .mem ≤ 1 ∧ (core 1 0 [] 0).len .mem < 0 + 2 ∧
      0 + 2 ≤ (core 2 0 [] 0).len .mem := by decide

theorem witness_RegisterOccupiesItsTwoBytes : 9 < 10 ∧ 10 ≤ 10 ∧ 2 * Reg.r8.index + 1 = 19 := by decide

theorem witness_AddWritesSumToAcc : (0 : Byte).toNat = Reg.ip.index ∧ (9 : Byte).toNat = Reg.r8.index := by decide

theorem witness_AddWithBadIndexLatches : 10 ≤ (10 : Byte).toNat ∧ 10 ≤ (255 : Byte).toNat ∧ (9 : Byte).toNat < 10 := by
  decide

theorem witness_AddIsCommutative : ((9 : Byte).toNat < 10 ∨ (10 : Byte).toNat < 10) ∧ 10 ≤ (10 : Byte).toNat := by decide

theorem witness_UnrecognizedOpcodeIsNoOp :
    let s := core 65536 0xFFFF [0x13] 0xFFFF;
    (0x13 : Byte) ≠ s.cfg.opcodes.movLitR1 ∧ (0x13 : Byte) ≠ s.cfg.opcodes.movLitR2 ∧
      (0x13 : Byte) ≠ s.cfg.opcodes.addRegReg ∧ s.halted = false ∧ (s.getReg .ip).toNat < s.cfg.memLen ∧
      s.byteAt .mem (s.getReg .ip).toNat = 0x13 := by decide

/-- The literal ends exactly at the end of memory, and one byte past it. -/
theorem witness_MovLitR1Executes : ((core 6 0 [] 4).getReg .ip).toNat + 2 ≤ (core 6 0 [] 4).cfg.memLen ∧
    (core 6 0 [] 5).cfg.memLen < ((core 6 0 [] 5).getReg .ip).toNat + 2 := by decide

theorem witness_MovLitR2Executes : (core 6 0 [] 4).cfg.WellFormed ∧
    ((core 6 0 [] 4).getReg .ip).toNat + 2 ≤ (core 6 0 [] 4).cfg.memLen ∧ (core 6 0 [] 5).cfg.WellFormed ∧
    (core 6 0 [] 5).cfg.memLen < ((core 6 0 [] 5).getReg .ip).toNat + 2 := by decide

/-- No index byte fits; only the first; both, with 9 and 10 in either place; and across the wrap. -/
theorem witness_AddRegRegExecutes :
    ((core 2 0 [] 2).cfg.WellFormed ∧ (core 2 0 [] 2).cfg.memLen ≤ ((core 2 0 [] 2).getReg .ip).toNat) ∧
    (1 < (core 2 0 [] 1).cfg.memLen ∧ (core 2 0 [] 1).cfg.memLen ≤ (1 + 1) % 65536 ∧
      1 = ((core 2 0 [] 1).getReg .ip).toNat) ∧
    (let s := core 3 1 [10, 9] 1;
      1 < s.cfg.memLen ∧ 2 < s.cfg.memLen ∧ 1 = (s.getReg .ip).toNat ∧ 10 ≤ (s.byteAt .mem 1).toNat) ∧
    (let s := core 3 1 [9, 10] 1;
      (s.byteAt .mem 1).toNat < 10 ∧ 10 ≤ (s.byteAt .mem 2).toNat ∧ (s.byteAt .mem 1).toNat = Reg.r8.index) ∧
    (let s := (core 65536 0 [0] 0xFFFF).putByte .mem 0xFFFF 9;
      0xFFFF = (s.getReg .ip).toNat ∧ 0xFFFF < s.cfg.memLen ∧ (0xFFFF + 1) % 65536 < s.cfg.memLen ∧
        (s.byteAt .mem 0xFFFF).toNat = Reg.r8.index ∧ (s.byteAt .mem 0).toNat = Reg.ip.index) := by decide

/-- A literal move whose second literal byte is at offset 0x10000, an addition across the wrap, a no-op. -/
theorem witness_StepRunsTheDecodedInstruction :
    (let s := core 65537 0xFFFE [0x10, 0x12, 0x34] 0xFFFE;
      s.halted = false ∧ Memory.wf regfileLen s.regfile ∧ (∀ a ∈ s.instrOffsets, a < s.cfg.memLen) ∧
        decode s.cfg.opcodes (s.instrOffsets.map (s.byteAt .mem)) = .ok (.movLitR1 0x1234, [])) ∧
    (let s := (core 65536 0 [1, 0] 0xFFFF).putByte .mem 0xFFFF 0x12;
      s.halted = false ∧ Memory.wf regfileLen s.regfile ∧ (∀ a ∈ s.instrOffsets, a < s.cfg.memLen) ∧
        decode s.cfg.opcodes (s.instrOffsets.map (s.byteAt .mem)) = .ok (.addRegReg 1 0, [])) ∧
    (let s := core 1 0 [0xFF] 0;
      s.halted = false ∧ Memory.wf regfileLen s.regfile ∧ (∀ a ∈ s.instrOffsets, a < s.cfg.memLen) ∧
        decode s.cfg.opcodes (s.instrOffsets.map (s.byteAt .mem)) = .ok (.unrecognized 0xFF, [])) := by decide

theorem witness_PlacedWordRunsNext : Memory.wf regfileLen stopped.regfile ∧
    decode stopped.cfg.opcodes (tableBytes 24 0xCDAB11) = .ok (.movLitR2 0xABCD, []) ∧
    decode stopped.cfg.opcodes (tableBytes 8 0x13) = .ok (.unrecognized 0x13, [0, 0]) := by decide

theorem witness_StepFetchesThenExecutes :
    ((core 4 0 [] 3).halted = false ∧ ((core 4 0 [] 3).getReg .ip).toNat < (core 4 0 [] 3).cfg.memLen) ∧
      (core 4 0 [] 4).halted = false ∧ (core 4 0 [] 4).cfg.memLen ≤ ((core 4 0 [] 4).getReg .ip).toNat := by decide

theorem witness_StepStopsExactlyWhenHalted : (core 4 0 [] 0).halted = false ∧ stopped.halted = true := by decide

theorem witness_CompletedStepAdvancesIp :
    (∃ t, step (core 4 0 [0x13] 0) = .next t ∧ decide (t.halted = false) = true) ∧
    dispatch Opcodes.standard ((core 4 0 [0x13] 0).byteAt .mem 0) = .unrecognized ∧
    (∃ t, step (core 4 0 [0x12, 9, 9] 0) = .next t ∧ decide (t.halted = false) = true) ∧
    dispatch Opcodes.standard ((core 4 0 [0x12, 9, 9] 0).byteAt .mem 0) ≠ .unrecognized :=
  ⟨ends_next (by decide), by decide, ends_next (by decide), by decide⟩

/-- The opcode fetch, a literal fetch, either index fetch and a register read fail. -/
theorem witness_FailedStepLeavesOnlyFetchAdvance :
    (∃ t, step (core 4 0 [] 4) = .next t ∧ latched t ⟨.mem, 4, .one⟩ = true) ∧
    (∃ t, step (core 2 0 [0x10, 0] 0) = .next t ∧ latched t ⟨.mem, 1, .two⟩ = true) ∧
    (∃ t, step (core 1 0 [0x12] 0) = .next t ∧ latched t ⟨.mem, 1, .one⟩ = true) ∧
    (∃ t, step (core 2 0 [0x12, 2] 0) = .next t ∧ latched t ⟨.mem, 2, .one⟩ = true) ∧
    (∃ t, step (core 3 0 [0x12, 2, 10] 0) = .next t ∧ latched t ⟨.regfile, 20, .two⟩ = true) :=
  ⟨ends_next (by decide), ends_next (by decide), ends_next (by decide), ends_next (by decide), ends_next (by decide)⟩

theorem witness_OnlyHostWritesChangeMainMemory :
    (∃ t, exec (.addRegReg 2 3) State.reset = .next t ∧ true = true) ∧
    (∃ t, step (core 16 0 [0x11, 0xAB, 0xCD] 0) = .next t ∧ holds t [(.r2, 0xABCD)] false = true) ∧
    (∃ x, perform (.exec 0x10) (core 8 4 [0x12, 0x34] 4) = .next x ∧ true = true) ∧
    (∀ a v, Command.exec 0x10 ≠ .memWrite8 a v) ∧ (∀ a v, Command.exec 0x10 ≠ .memWrite16 a v) :=
  ⟨ends_next (p := fun _ => true) (by decide), ends_next (by decide), ends_next (p := fun _ => true) (by decide),
    by simp, by simp⟩

/-- Steps that change `r1`, `r2` and `acc`. -/
theorem witness_StepsWriteOnlyTheirRegister :
    (∃ t, step (core 4 0 [0x10, 0, 5] 0) = .next t ∧ decide (t.getReg .r1 ≠ (core 4 0 [0x10, 0, 5] 0).getReg .r1) = true) ∧
    (∃ t, step (core 4 0 [0x11, 0, 5] 0) = .next t ∧ decide (t.getReg .r2 ≠ (core 4 0 [0x11, 0, 5] 0).getReg .r2) = true) ∧
    (∃ t, step (core 4 0 [0x12, 0, 0] 0) = .next t ∧
      decide (t.getReg .acc ≠ (core 4 0 [0x12, 0, 0] 0).getReg .acc) = true) :=
  ⟨ends_next (by decide), ends_next (by decide), ends_next (by decide)⟩

/-- Two states that differ at offset 0x10001 and step across 0x10000. -/
theorem witness_StepIgnoresMemoryBeyondReach :
    let s := core 65540 0xFFFE [0x10, 0x12, 0x34] 0xFFFE;
    let s' := s.putByte .mem 65537 9;
    SameWithinReach s s' ∧ s'.mem ≠ s.mem ∧
      ∃ t, step s = .next t ∧ holds t [(.r1, 0x1234), (.ip, 1)] false = true := by
  refine ⟨⟨by decide, by decide, ⟨by decide, by decide⟩, fun a ha => ?_⟩, by decide, ends_next (by decide)⟩
  have h : a ≠ 65537 := by omega
  simp only [core, placeAt, State.putBytes, State.byteAt, State.cells, State.putByte, State.setCells, State.setReg,
    State.putWord]
  have hm : ∀ (m : Memory) (v : Byte), (∀ c ∈ m, c.1 ≠ 65537) →
      (Memory.insert m 65537 v).read a = Memory.read m a := by
    intro m v hv
    induction m with
    | nil => simp [Memory.insert, Memory.read, Ne.symm h]
    | cons c m ih =>
      rw [List.forall_mem_cons] at hv
      simp only [Memory.insert]
      split
      · simp [Memory.read, Ne.symm h]
      · simp [Memory.read, ih hv.2]
  exact hm [(0xFFFE, 0x10), (0xFFFF, 0x12), (0x10000, 0x34)] 9 (by decide)

/-- `MEM_LEN` = 65535 and `MEM_LEN` = 65536, the values where the two clauses meet. -/
theorem witness_ZeroFilledMemoryRunsAsNoOps :
    (let s := core 65535 0 [] 65535;
      s.halted = false ∧ (∀ a, s.byteAt .mem a = 0) ∧ s.cfg.opcodes.Unrecognized 0 ∧ s.cfg.memLen ≤ 65535 ∧
        (s.getReg .ip).toNat ≤ s.cfg.memLen) ∧
    (let s := core 65536 0 [] 65535;
      s.halted = false ∧ (∀ a, s.byteAt .mem a = 0) ∧ s.cfg.opcodes.Unrecognized 0 ∧ 65536 ≤ s.cfg.memLen) :=
  ⟨⟨by decide, fun _ => rfl, by decide, by decide, by decide⟩, by decide, fun _ => rfl, by decide, by decide⟩

theorem witness_PowerOnMeetsInvariant : (⟨0, ⟨0, 1, 2⟩⟩ : Config).WellFormed := by decide

/-- A running core with bytes in memory and registers set meets the invariant. -/
theorem running_inv : (core 4 0 [0x10, 0x12, 0x34] 0).Inv :=
  ⟨by decide, by decide, by decide, by decide, fun _ h => nomatch h⟩

/-- So does a halted core, with its record. -/
theorem stopped_inv : stopped.Inv :=
  ⟨by decide, by decide, by decide, by decide, fun r h => by
    obtain rfl := Option.some.inj h
    exact ⟨rfl, by decide⟩⟩

theorem witness_StepKeepsInvariant : (core 4 0 [0x10, 0x12, 0x34] 0).Inv ∧
    ∃ t, step (core 4 0 [0x10, 0x12, 0x34] 0) = .next t ∧ holds t [(.r1, 0x1234)] false = true :=
  ⟨running_inv, ends_next (by decide)⟩

theorem witness_CommandsKeepInvariant : stopped.Inv ∧
    ∃ x, perform (.memWrite16 2 0x1200) stopped = .next x ∧ decide (x.2 = .ok) = true :=
  ⟨stopped_inv, ends_next (by decide)⟩

/-- The last byte and the first beyond; the last word and the first that does not fit. -/
theorem witness_FetchCommandsAdvanceIp :
    (core 4 0 [] 3).halted = false ∧ ((core 4 0 [] 3).getReg .ip).toNat < (core 4 0 [] 3).cfg.memLen ∧
    (core 4 0 [] 3).cfg.memLen < ((core 4 0 [] 3).getReg .ip).toNat + 2 ∧
    (core 4 0 [] 4).halted = false ∧ (core 4 0 [] 4).cfg.memLen ≤ ((core 4 0 [] 4).getReg .ip).toNat ∧
    (core 4 0 [] 2).halted = false ∧ ((core 4 0 [] 2).getReg .ip).toNat + 2 ≤ (core 4 0 [] 2).cfg.memLen := by decide

/-- The last two: `EXEC` of the addition completes, and `EXEC` of a literal move past the end latches its error. -/
theorem witness_ExecCommandExecutesTheGivenOpcode : (core 8 4 [0x12, 0x34] 6).halted = false ∧
    0x10 = (core 8 4 [0x12, 0x34] 6).cfg.opcodes.movLitR1 ∧
    ((core 8 4 [0x12, 0x34] 6).getReg .ip).toNat + 2 ≤ (core 8 4 [0x12, 0x34] 6).cfg.memLen ∧
    (core 8 4 [0x12, 0x34] 6).cfg.opcodes.Unrecognized 0xFF ∧
    (∃ x, perform (.exec 0x12) (core 4 0 [2, 3] 0) = .next x ∧ decide (x.1.halted = false ∧ x.2 = .ok) = true) ∧
    ∃ x, perform (.exec 0x11) (core 4 0 [] 3) = .next x ∧
      (latched x.1 ⟨.mem, 3, .two⟩ && decide (x.2 = .err (.outOfBounds ⟨.mem, 3, .two⟩))) = true :=
  ⟨by decide, by decide, by decide, by decide, ends_next (by decide), ends_next (by decide)⟩

theorem witness_StepCommandAnswersTheStep : stopped.halted = true ∧ (core 4 0 [] 4).halted = false ∧
    (∃ x, perform .step (core 4 0 [] 4) = .next x ∧ decide (x.1.halted = true) = true) ∧
    ∃ x, perform .step (core 4 0 [] 3) = .next x ∧ decide (x.1.halted = false) = true :=
  ⟨by decide, by decide, ends_next (by decide), ends_next (by decide)⟩

theorem witness_GetRegAnswersTheRegister : Reg.r8.index = 9 ∧ 10 ≤ 10 := by decide

theorem witness_SetRegWritesExactlyOneRegister :
    10 ≤ 10 ∧ 17 ≠ 2 * Reg.r8.index ∧ 17 ≠ 2 * Reg.r8.index + 1 := by decide

theorem witness_SetRegThenGetRegRoundTrips : 0 < 10 ∧ 9 < 10 := by decide

/-- The last byte, the last word, the first byte beyond, the first word that does not fit. -/
theorem witness_MemoryPortServesTheAccessors : 3 < (core 4 0 [] 0).cfg.memLen ∧ 2 + 2 ≤ (core 4 0 [] 0).cfg.memLen ∧
    (core 4 0 [] 0).cfg.memLen ≤ 4 ∧ (core 4 0 [] 0).cfg.memLen < 3 + 2 := by decide

theorem witness_FetchSeesHostWrites : (core 4 0 [] 2).halted = false ∧ 2 = ((core 4 0 [] 2).getReg .ip).toNat ∧
    2 < (core 4 0 [] 2).cfg.memLen ∧ 2 + 2 ≤ (core 4 0 [] 2).cfg.memLen := by decide

/-- Bytes that end exactly at the end of memory. -/
theorem witness_LoadingPlacesEveryByte :
    1 + ([0x10, 0x12, 0x34] : List Byte).length ≤ (core 4 0 [] 0).cfg.memLen := by decide

theorem witness_HaltedCoreServesOnlyTheHostPorts : stopped.halted = true ∧ Command.fetch16.kind = .core ∧
    (Command.memWrite8 0 1).kind = .hostPort ∧ Command.reset.kind = .reset := by decide

theorem witness_OnlyResetLeavesTheHaltedState : stopped.halted = true ∧
    Command.reset ∉ [Command.step, .setReg 0 0, .step] ∧
    ∃ x, performAll [.step, .setReg 0 0, .step] stopped = .next x ∧ decide (x.1.halted = true) = true :=
  ⟨by decide, by decide, ends_next (by decide)⟩

theorem witness_ErrorsLatchExactlyInCoreCommands : (core 4 0 [] 4).halted = false ∧
    (∃ x, perform .fetch8 (core 4 0 [] 4) = .next x ∧ latched x.1 ⟨.mem, 4, .one⟩ = true) ∧
    Command.fetch8.kind = .core ∧
    (∃ x, perform (.memRead8 4) (core 4 0 [] 4) = .next x ∧
      decide (x.2 = .err (.outOfBounds ⟨.mem, 4, .one⟩)) = true) ∧ (Command.memRead8 4).kind = .hostPort :=
  ⟨by decide, ends_next (by decide), rfl, ends_next (by decide), rfl⟩

theorem witness_OutOfBoundsAnswersAreGenuine :
    (∃ x, perform (.memWrite16 3 0) (core 4 0 [] 0) = .next x ∧
      decide (x.2 = .err (.outOfBounds ⟨.mem, 3, .two⟩)) = true) ∧
    ∃ x, perform .step (core 4 0 [0x12, 0, 10] 0) = .next x ∧
      decide (x.2 = .err (.outOfBounds ⟨.regfile, 20, .two⟩)) = true :=
  ⟨ends_next (by decide), ends_next (by decide)⟩

end Sys2Proof.Tests
end

/-! The build of a core (spec/00_scope.md R8, R9) and the invariant of Safety.lean, which a built core meets and every
step and every host command keeps. -/

namespace Sys2Proof.Machine

/-! ### The build of a core -/

theorem powerOn_wellFormed {cfg : Config} (h : cfg.WellFormed) : powerOn cfg = .next (State.powerOn cfg) := if_pos h

theorem powerOn_illFormed {cfg : Config} (h : ¬ cfg.WellFormed) : powerOn cfg = .refused .opcodesNotDistinct := if_neg h

/-- R8 with the three parameters named: a configuration is admitted exactly when no two of its opcodes are equal. -/
theorem wellFormed_iff (n : Nat) (a b c : Byte) :
    (⟨n, ⟨a, b, c⟩⟩ : Config).WellFormed ↔ ¬ (a = b ∨ a = c ∨ b = c) := by
  simp only [Config.WellFormed, Opcodes.Distinct, not_or, ne_eq]

/-- Settles O2: `powerOn` tests well-formedness alone, which is that no two opcodes are equal. -/
theorem powerOnRefusesExactlyEqualOpcodes : Obligations.PowerOnRefusesExactlyEqualOpcodes := by
  intro n a b c
  refine ⟨fun heq => ?_, fun hne => ?_⟩
  · exact powerOn_illFormed fun hwf => (wellFormed_iff n a b c).1 hwf heq
  · exact ⟨_, powerOn_wellFormed ((wellFormed_iff n a b c).2 hne)⟩

/-- Empty stores are canonical and a clear latch holds no record, so only the opcodes need a hypothesis. -/
theorem State.powerOn_inv {cfg : Config} (h : cfg.WellFormed) : (State.powerOn cfg).Inv where
  opcodes := h
  mem := Memory.wf_nil _
  regfile := Memory.wf_nil _
  latch := rfl
  record := fun _ hr => nomatch hr

theorem standard_wellFormed : Config.standard.WellFormed := by decide

/-- Settles O30, with `State.reset` as the power-on state of `Config.standard`. -/
theorem powerOnMeetsInvariant : Obligations.PowerOnMeetsInvariant :=
  ⟨fun _ h => ⟨_, powerOn_wellFormed h, State.powerOn_inv h⟩, powerOn_wellFormed standard_wellFormed,
    State.powerOn_inv standard_wellFormed⟩

/-! ### A step keeps the invariant -/

/-- The error of a byte access out of range. -/
theorem State.Inv.takeError_one {s : State} (h : s.Inv) {st : StoreId} {off : Nat} (out : s.len st ≤ off) :
    (s.takeError ⟨st, off, .one⟩).Inv :=
  h.takeError (Nat.lt_succ_of_le out)

/-- The error of a word access out of range. -/
theorem State.Inv.takeError_two {s : State} (h : s.Inv) {st : StoreId} {off : Nat} (out : s.len st < off + 2) :
    (s.takeError ⟨st, off, .two⟩).Inv :=
  h.takeError out

/-- A register index of 10 or more is an access past the 20 bytes of the register file (R141). -/
theorem State.Inv.takeError_badIndex {s : State} (h : s.Inv) {i : Nat} (bad : 10 ≤ i) :
    (s.takeError ⟨.regfile, 2 * i, .two⟩).Inv :=
  h.takeError_two (show 20 < 2 * i + 2 by omega)

/-- Every way an opcode's execution ends is register writes, then at most one error of an access out of range. -/
theorem ExecuteCase.inv {op : Byte} {s t : State} {n : Nat} (hc : ExecuteCase op s n t) (h : s.Inv) : t.Inv := by
  cases hc with
  | movLitR1 => exact (h.setReg _ _).setReg _ _
  | movLitR1Fault _ out => exact h.takeError_two out
  | movLitR2 => exact (h.setReg _ _).setReg _ _
  | movLitR2Fault _ out => exact h.takeError_two out
  | addFetchRa _ out => exact h.takeError_one out
  | addFetchRb _ _ out => exact (h.setReg _ _).takeError_one (by simpa using out)
  | addReadRa _ _ _ bad => exact ((h.setReg _ _).setReg _ _).takeError_badIndex bad
  | addReadRb _ _ _ _ bad => exact ((h.setReg _ _).setReg _ _).takeError_badIndex bad
  | add => exact ((h.setReg _ _).setReg _ _).setReg _ _
  | unrecognized => exact h

theorem step_inv {s t : State} (h : s.Inv) (hs : step s = .next t) : t.Inv := by
  obtain ⟨-, ⟨out, rfl⟩ | ⟨-, hc⟩⟩ := step_cases hs
  · exact h.takeError_one out
  · exact hc.inv (h.setReg _ _)

/-- Settles O31: `step_cases` and `ExecuteCase` list every end of a step, and each is made of operations that keep the
invariant. -/
theorem stepKeepsInvariant : Obligations.StepKeepsInvariant := fun _ _ => step_inv

/-! ### A host command keeps the invariant -/

/-- A reply leaves a state that meets the invariant. -/
def ReplyInv (reply : Reply) : Prop := ∀ t r, reply = .next (t, r) → t.Inv

@[simp] theorem replyInv_next (t : State) (r : Response) : ReplyInv (.next (t, r)) ↔ t.Inv :=
  ⟨fun h => h t r rfl, fun h _ _ heq => by cases heq; exact h⟩

/-- A refused command changes nothing, so only the running core's reply matters (R101). -/
theorem whenRunning_inv {s : State} (h : s.Inv) {reply : Reply} (hr : ReplyInv reply) :
    ReplyInv (whenRunning s reply) := by
  unfold whenRunning
  split
  · exact (replyInv_next _ _).2 h
  · exact hr

theorem replyOutcome_inv {s : State} (h : s.Inv) {o : Host.Outcome State Fault Refusal}
    (ho : ∀ u, o = .next u → u.Inv) : ReplyInv (replyOutcome s o) := by
  match o with
  | .next u => exact (replyInv_next _ _).2 (ho u rfl)
  | .fault (.coreHalted _) => exact (replyInv_next _ _).2 h
  | .refused _ => exact nofun

theorem replyRead_inv {α : Type} {s : State} (h : s.Inv) (value : α → Response) (x : Except AccessInfo α) :
    ReplyInv (replyRead s value x) := by
  cases x <;> exact (replyInv_next _ _).2 h

theorem replyFetch8_inv {s : State} (h : s.Inv) (value : Byte → Response) :
    ReplyInv (replyAccess value (fetch8 s)) := by
  rw [fetch8_eq]
  split
  · exact (replyInv_next _ _).2 (h.setReg _ _)
  · next out => exact (replyInv_next _ _).2 (h.takeError_one (Nat.le_of_not_lt out))

theorem replyFetch16_inv {s : State} (h : s.Inv) (value : Word → Response) :
    ReplyInv (replyAccess value (fetch16 s)) := by
  rw [fetch16_eq]
  split
  · exact (replyInv_next _ _).2 (h.setReg _ _)
  · next out => exact (replyInv_next _ _).2 (h.takeError_two (Nat.lt_of_not_le out))

theorem replyWriteU8_inv {s : State} (h : s.Inv) (a : Nat) (b : Byte) :
    ReplyInv (replyWrite s (s.writeU8 .mem a b)) := by
  rcases Nat.lt_or_ge a (s.len .mem) with fits | out
  · simpa [writeU8_ok b fits] using h.putByte_mem b fits
  · simpa [writeU8_error b out] using h

/-- A write of a main-memory word in range keeps the invariant: it is two byte writes in range. -/
theorem State.Inv.putWord_mem {s : State} (h : s.Inv) {a : Nat} (v : Nat) (fits : a + 2 ≤ s.len .mem) :
    (s.putWord .mem a v).Inv :=
  (h.putByte_mem _ (show a < s.len .mem by omega)).putByte_mem _ (show a + 1 < s.len .mem by omega)

theorem replyWriteU16_inv {s : State} (h : s.Inv) (a v : Nat) :
    ReplyInv (replyWrite s (s.writeU16 .mem a v)) := by
  rcases Nat.lt_or_ge (s.len .mem) (a + 2) with out | fits
  · simpa [writeU16_error v out] using h
  · simpa [writeU16_ok v fits] using h.putWord_mem v fits

theorem performGetReg_inv {s : State} (h : s.Inv) (sel : Nat) : ReplyInv (performGetReg sel s) := by
  unfold performGetReg
  split <;> exact (replyInv_next _ _).2 h

theorem performSetReg_inv {s : State} (h : s.Inv) (sel v : Nat) : ReplyInv (performSetReg sel v s) := by
  unfold performSetReg
  split
  · exact (replyInv_next _ _).2 (h.setReg _ _)
  · exact (replyInv_next _ _).2 h

theorem perform_inv {s : State} (h : s.Inv) (c : Command) : ReplyInv (perform c s) := by
  cases c with
  | step => exact replyOutcome_inv h fun _ => step_inv h
  | exec op => exact whenRunning_inv h (replyOutcome_inv h fun _ hu => (executeOpcode_cases hu).inv h)
  | fetch8 => exact whenRunning_inv h (replyFetch8_inv h _)
  | fetch16 => exact whenRunning_inv h (replyFetch16_inv h _)
  | getReg sel => exact performGetReg_inv h sel
  | setReg sel v => exact performSetReg_inv h sel v
  | memRead8 | memRead16 => exact replyRead_inv h _ _
  | memWrite8 a b => exact replyWriteU8_inv h a b
  | memWrite16 a v => exact replyWriteU16_inv h a v
  | debug => exact (replyInv_next _ _).2 h
  | reset => exact (replyInv_next _ _).2 h.resetCore

/-- Settles O32, command by command: each reply is made of operations that keep the invariant. -/
theorem commandsKeepInvariant : Obligations.CommandsKeepInvariant := fun c _ t r h => perform_inv h c t r

end Sys2Proof.Machine

/-! The registers (spec/10_state.md R20 to R42): where each one lies in the register file, its value after reset, which
of them a step writes, and the host's register port. -/

namespace Sys2Proof.Machine

/-! ### Where a register lies -/

/-- A register is the big-endian number its two bytes make (R22). -/
theorem getReg_eq_bytes (s : State) (r : Reg) :
    s.getReg r = BitVec.ofNat 16 ((s.byteAt .regfile (2 * r.index)).toNat * 256 +
      (s.byteAt .regfile (2 * r.index + 1)).toNat) :=
  (ofNat_be16 _ _).symm

theorem byteAt_regfile_setReg (s : State) (r : Reg) (v a : Nat) :
    (s.setReg r v).byteAt .regfile a =
      if a = 2 * r.index then BitVec.ofNat 8 (v % 65536 / 256)
      else if a = 2 * r.index + 1 then BitVec.ofNat 8 (v % 65536 % 256) else s.byteAt .regfile a := by
  rw [← hiByte_ofNat, ← loByte_ofNat]
  exact State.byteAt_putWord s .regfile r.offset v a

/-- `Reg.all` lists the registers at their indices (R20). -/
theorem Reg.all_getElem?_index (r : Reg) : Reg.all[r.index]? = some r := by cases r <;> rfl

/-- Settles O11: the big-endian reading of `getReg`, the bytes a word write changes, and the indices of `Reg.all`. -/
theorem registerOccupiesItsTwoBytes : Obligations.RegisterOccupiesItsTwoBytes := by
  refine ⟨getReg_eq_bytes, fun s r v => ?_, fun n => ⟨fun hn => ?_, Reg.ofIndex_none⟩⟩
  · obtain ⟨⟨hcfg, hmem, -⟩, hlatch⟩ := onlyRegs_setReg s r v
    exact ⟨byteAt_regfile_setReg s r v, hmem, hcfg, hlatch⟩
  · obtain ⟨r, rfl, hr⟩ := Reg.exists_index hn
    exact ⟨r, hr, rfl, r.all_getElem?_index⟩

/-! ### Registers after reset -/

theorem byteAt_regfile_high (s : State) (r : Reg) : s.byteAt .regfile (2 * r.index) = hiByte (s.getReg r) :=
  (hiByte_be16 _ _).symm

theorem byteAt_regfile_low (s : State) (r : Reg) : s.byteAt .regfile (2 * r.index + 1) = loByte (s.getReg r) :=
  (loByte_be16 _ _).symm

/-- The ten registers cover the register file: when all of them are 0, so are its 20 bytes. -/
theorem byteAt_regfile_of_regs_zero {s : State} (h : ∀ r : Reg, s.getReg r = 0) {a : Nat} (ha : a < 20) :
    s.byteAt .regfile a = 0 := by
  obtain ⟨r, hr, -⟩ := Reg.exists_index (show a / 2 < 10 by omega)
  obtain hhigh | hlow : a = 2 * r.index ∨ a = 2 * r.index + 1 := by omega
  · rw [hhigh, byteAt_regfile_high, h]
    rfl
  · rw [hlow, byteAt_regfile_low, h]
    rfl

@[simp] theorem byteAt_powerOn (cfg : Config) (st : StoreId) (a : Nat) : (State.powerOn cfg).byteAt st a = 0 := by
  cases st <;> rfl

/-- Settles O1: power-on begins with empty stores, and `RESET` writes every register, hence every byte of the register
file. -/
theorem registersAreZeroAfterReset : Obligations.RegistersAreZeroAfterReset := by
  refine ⟨fun cfg hwf => ?_, fun s => ?_⟩
  · exact ⟨_, powerOn_wellFormed hwf, getReg_powerOn cfg, byteAt_powerOn cfg⟩
  · exact ⟨_, _, rfl, getReg_resetCore s, fun _ => byteAt_regfile_of_regs_zero (getReg_resetCore s)⟩

/-! ### The registers a step writes -/

/-- The registers besides `ip` that an instruction of this kind may write (R24). -/
def destRegs : OpcodeKind → List Reg
  | .movLitR1 => [.r1]
  | .movLitR2 => [.r2]
  | .addRegReg => [.acc]
  | .unrecognized => []

theorem mem_destRegs {r : Reg} {k : OpcodeKind} :
    r ∈ destRegs k ↔
      (r = .r1 ∧ k = .movLitR1) ∨ (r = .r2 ∧ k = .movLitR2) ∨ (r = .acc ∧ k = .addRegReg) := by
  cases k <;> simp [destRegs]

/-- The opcode kind the next step dispatches on, when its opcode fetch is in range (R105, R106). -/
def State.nextKind (s : State) : OpcodeKind := dispatch s.cfg.opcodes (s.byteAt .mem (s.getReg .ip).toNat)

/-- The frame of an opcode's execution, completed or not. -/
theorem ExecuteCase.frame {op : Byte} {s t : State} {n : Nat} (hc : ExecuteCase op s n t) :
    OnlyRegsAndLatch (.ip :: destRegs (dispatch s.cfg.opcodes op)) s t := by
  cases hc with
  | movLitR1 k | movLitR2 k =>
    rw [k]
    exact ((onlyRegs_setReg _ _ _).trans (onlyRegs_setReg _ _ _)).1
  | movLitR1Fault | movLitR2Fault | addFetchRa => exact (onlyLatch_takeError _ _).1.mono (by simp)
  | addFetchRb => exact ((onlyRegs_setReg _ _ _).1.trans (onlyLatch_takeError _ _).1).mono (by simp)
  | addReadRa | addReadRb =>
    exact (((onlyRegs_setReg _ _ _).trans (onlyRegs_setReg _ _ _)).1.trans (onlyLatch_takeError _ _).1).mono (by simp)
  | add a b k =>
    rw [k]
    exact (((onlyRegs_setReg _ _ _).trans (onlyRegs_setReg _ _ _)).trans (onlyRegs_setReg _ _ _)).1.mono
      (by simp [destRegs])
  | unrecognized => exact ⟨rfl, fun _ => rfl, fun _ _ => rfl⟩

/-- The frame of a step, completed or not. -/
theorem step_frame {s t : State} (hs : step s = .next t) : OnlyRegsAndLatch (.ip :: destRegs s.nextKind) s t := by
  obtain ⟨-, ⟨-, rfl⟩ | ⟨-, hc⟩⟩ := step_cases hs
  · exact (onlyLatch_takeError _ _).1.mono (by simp)
  · have hexec := hc.frame
    rw [State.setReg_cfg] at hexec
    exact ((onlyRegs_setReg _ _ _).1.trans hexec).mono (by simp [State.nextKind])

/-- What a step changes besides `ip` names the instruction that ran. -/
theorem step_changes_cases {s t : State} (hs : step s = .next t) {r : Reg} (hip : r ≠ .ip)
    (hr : t.getReg r ≠ s.getReg r) :
    (r = .r1 ∧ s.byteAt .mem (s.getReg .ip).toNat = s.cfg.opcodes.movLitR1) ∨
      (r = .r2 ∧ s.byteAt .mem (s.getReg .ip).toNat = s.cfg.opcodes.movLitR2) ∨
      (r = .acc ∧ s.byteAt .mem (s.getReg .ip).toNat = s.cfg.opcodes.addRegReg) := by
  obtain ⟨-, -, hregs⟩ := step_frame hs
  have hmem : r ∈ destRegs s.nextKind := by
    by_contra hmem
    exact hr (hregs r (by simp [hip, hmem]))
  obtain ⟨hr1, hk⟩ | ⟨hr2, hk⟩ | ⟨hacc, hk⟩ := mem_destRegs.1 hmem
  · exact .inl ⟨hr1, eq_movLitR1_of_dispatch hk⟩
  · exact .inr (.inl ⟨hr2, eq_movLitR2_of_dispatch hk⟩)
  · exact .inr (.inr ⟨hacc, eq_addRegReg_of_dispatch hk⟩)

/-- Settles O27: `step_changes_cases`, read for each register. -/
theorem stepsWriteOnlyTheirRegister : Obligations.StepsWriteOnlyTheirRegister := by
  intro s t hs
  refine ⟨fun hr => ?_, fun hr => ?_, fun hr => ?_, fun r hout => ?_⟩
  · simpa using step_changes_cases hs (by decide) hr
  · simpa using step_changes_cases hs (by decide) hr
  · simpa using step_changes_cases hs (by decide) hr
  · simp only [List.mem_cons, List.not_mem_nil, or_false, not_or] at hout
    obtain ⟨hip, hacc, hr1, hr2⟩ := hout
    by_contra hr
    simpa [hacc, hr1, hr2] using step_changes_cases hs hip hr

/-! ### The advance of `ip` -/

/-- An execution that raises no error, begun just after the opcode byte at `a`, leaves `ip` past the instruction. -/
theorem ExecuteCase.ip_of_running {op : Byte} {s t : State} {a : Nat} (hc : ExecuteCase op s ((a + 1) % 65536) t)
    (hip : s.getReg .ip = BitVec.ofNat 16 (a + 1)) (ht : t.halted = false) :
    t.getReg .ip = BitVec.ofNat 16 (a + (dispatch s.cfg.opcodes op).length) := by
  cases hc with
  | movLitR1 k | movLitR2 k | add _ _ k =>
    rw [k, getReg_setReg_ne _ _ (by decide), getReg_setReg_same]
    apply BitVec.eq_of_toNat_eq
    simp only [BitVec.toNat_ofNat, OpcodeKind.length]
    omega
  | unrecognized k =>
    rw [k]
    exact hip
  | movLitR1Fault | movLitR2Fault | addFetchRa | addFetchRb | addReadRa | addReadRb => cases ht

theorem step_ip_of_running {s t : State} (hs : step s = .next t) (ht : t.halted = false) :
    t.getReg .ip = BitVec.ofNat 16 ((s.getReg .ip).toNat + s.nextKind.length) := by
  obtain ⟨-, ⟨-, rfl⟩ | ⟨-, hc⟩⟩ := step_cases hs
  · cases ht
  · have hip := hc.ip_of_running (getReg_setReg_same _ _ _) ht
    rwa [State.setReg_cfg] at hip

theorem length_of_recognized {k : OpcodeKind} (h : k ≠ .unrecognized) : k.length = 3 := by
  cases k with
  | movLitR1 | movLitR2 | addRegReg => rfl
  | unrecognized => exact absurd rfl h

/-- Settles O24: `ip` moves by the length of the dispatched opcode kind, which is 1 or 3. -/
theorem completedStepAdvancesIp : Obligations.CompletedStepAdvancesIp := by
  intro s t hs ht
  have hip := step_ip_of_running hs ht
  refine ⟨fun (hk : s.nextKind = .unrecognized) => ?_, fun (hk : s.nextKind ≠ .unrecognized) => ?_⟩
  · rwa [hk] at hip
  · rwa [length_of_recognized hk] at hip

/-! ### The host's register port -/

/-- Settles O36: the select is a register's index or unknown. -/
theorem getRegAnswersTheRegister : Obligations.GetRegAnswersTheRegister := fun s =>
  ⟨fun r => performGetReg_index r s, fun _ hsel => performGetReg_unknown hsel s⟩

/-- Settles O37: `SETREG` of a register's index is the register write, whose frame `onlyRegs_setReg` gives. -/
theorem setRegWritesExactlyOneRegister : Obligations.SetRegWritesExactlyOneRegister := by
  refine fun s v => ⟨fun r => ?_, fun _ hsel => performSetReg_unknown hsel v s⟩
  refine ⟨s.setReg r v, performSetReg_index r v s, ?_, onlyRegs_setReg s r v, fun a hhigh hlow => ?_⟩
  · rw [getReg_setReg_same]
    exact BitVec.eq_of_toNat_eq (by simp)
  · rw [byteAt_regfile_setReg, if_neg hhigh, if_neg hlow]

/-- A run whose first command is answered goes on from the state it leaves. -/
theorem performAll_cons {c : Command} {cs : List Command} {s t u : State} {r : Response} {rs : List Response}
    (hc : perform c s = .next (t, r)) (hcs : performAll cs t = .next (u, rs)) :
    performAll (c :: cs) s = .next (u, r :: rs) := by
  simp [performAll, hc, hcs]

/-- Settles O38: the read answers what the write stored, a 16-bit value being cut nowhere. -/
theorem setRegThenGetRegRoundTrips : Obligations.SetRegThenGetRegRoundTrips := by
  intro s sel v hsel
  obtain ⟨r, rfl, -⟩ := Reg.exists_index hsel
  have hget : performGetReg r.index (s.setReg r v.toNat) = .next (s.setReg r v.toNat, .okWord v) := by
    rw [performGetReg_index, getReg_setReg_same, ofNat_toNat16]
  exact ⟨_, performAll_cons (performSetReg_index r v.toNat s) (performAll_cons hget rfl)⟩

end Sys2Proof.Machine

/-! The memory (spec/20_memory.md R50 to R67): the accessors of the two Byte Stores, the host's memory port and its
meeting with the fetch unit, who writes main memory, and how far the core can reach in it. -/

namespace Sys2Proof.Machine

/-! ### The accessors -/

/-- A word of a store is the big-endian number its two bytes make (R53, R57). -/
theorem State.wordAt_eq_bytes (s : State) (st : StoreId) (off : Nat) :
    s.wordAt st off = BitVec.ofNat 16 ((s.byteAt st off).toNat * 256 + (s.byteAt st (off + 1)).toNat) :=
  (ofNat_be16 _ _).symm

/-- Settles O9: each accessor is its bounds check, and a word is read big-endian. -/
theorem storeReadsAreBoundedAndBigEndian : Obligations.StoreReadsAreBoundedAndBigEndian := by
  refine fun s st off => ⟨readU8_ok, readU8_error, fun fits => ?_, readU16_error⟩
  rw [readU16_ok fits, State.wordAt_eq_bytes]

/-- What every byte of both stores reads as after one byte is written (R52). -/
theorem State.byteAt_putByte (s : State) (st st' : StoreId) (off a : Nat) (v : Byte) :
    (s.putByte st off v).byteAt st' a = if st' = st ∧ a = off then v else s.byteAt st' a := by
  by_cases hst : st' = st
  · subst hst
    by_cases ha : a = off
    · simp [ha]
    · simp [State.byteAt_putByte_ne _ _ _ ha, ha]
  · simp [State.byteAt_putByte_store _ _ _ _ hst, hst]

/-- What every byte of both stores reads as after a value cut mod 2^16 is written as a word (R54, R57). -/
theorem State.byteAt_putWord_stores (s : State) (st st' : StoreId) (off v a : Nat) :
    (s.putWord st off v).byteAt st' a =
      if st' = st ∧ a = off then BitVec.ofNat 8 (v % 65536 / 256)
      else if st' = st ∧ a = off + 1 then BitVec.ofNat 8 (v % 65536 % 256) else s.byteAt st' a := by
  by_cases hst : st' = st
  · subst hst
    simp [State.byteAt_putWord, hiByte_ofNat, loByte_ofNat]
  · simp [State.byteAt_putWord_store _ _ _ _ hst, hst]

/-- Settles O10: an access in range is `putByte` or `putWord`, whose effect on every byte the two lemmas above say. -/
theorem storeWritesAreBoundedAndBigEndian : Obligations.StoreWritesAreBoundedAndBigEndian := by
  refine fun s st off => ⟨fun v => ⟨fun fits => ?_, writeU8_error v⟩, fun v => ⟨fun fits => ?_, writeU16_error v⟩⟩
  · exact ⟨_, writeU8_ok v fits, s.putByte_cfg st off v, ⟨s.putByte_halted st off v, s.putByte_fault st off v⟩,
      fun st' a => s.byteAt_putByte st st' off a v⟩
  · exact ⟨_, writeU16_ok v fits, s.putWord_cfg st off v, ⟨s.putWord_halted st off v, s.putWord_fault st off v⟩,
      fun st' a => s.byteAt_putWord_stores st st' off v a⟩

/-! ### The host's memory port -/

theorem perform_memRead8_ok {s : State} {a : Nat} (fits : a < s.cfg.memLen) :
    perform (.memRead8 a) s = .next (s, .okByte (s.byteAt .mem a)) := by
  rw [perform, readU8_ok (show a < s.len .mem from fits), replyRead_ok]

theorem perform_memRead8_error {s : State} {a : Nat} (out : s.cfg.memLen ≤ a) :
    perform (.memRead8 a) s = .next (s, .err (.outOfBounds ⟨.mem, a, .one⟩)) := by
  rw [perform, readU8_error (show s.len .mem ≤ a from out), replyRead_error]

theorem perform_memRead16_ok {s : State} {a : Nat} (fits : a + 2 ≤ s.cfg.memLen) :
    perform (.memRead16 a) s = .next (s, .okWord (s.wordAt .mem a)) := by
  rw [perform, readU16_ok (show a + 2 ≤ s.len .mem from fits), replyRead_ok]

theorem perform_memRead16_error {s : State} {a : Nat} (out : s.cfg.memLen < a + 2) :
    perform (.memRead16 a) s = .next (s, .err (.outOfBounds ⟨.mem, a, .two⟩)) := by
  rw [perform, readU16_error (show s.len .mem < a + 2 from out), replyRead_error]

theorem perform_memWrite8_ok {s : State} {a : Nat} (v : Byte) (fits : a < s.cfg.memLen) :
    perform (.memWrite8 a v) s = .next (s.putByte .mem a v, .ok) := by
  rw [perform, writeU8_ok v (show a < s.len .mem from fits), replyWrite_ok]

theorem perform_memWrite8_error {s : State} {a : Nat} (v : Byte) (out : s.cfg.memLen ≤ a) :
    perform (.memWrite8 a v) s = .next (s, .err (.outOfBounds ⟨.mem, a, .one⟩)) := by
  rw [perform, writeU8_error v (show s.len .mem ≤ a from out), replyWrite_error]

theorem perform_memWrite16_ok {s : State} {a : Nat} (v : Nat) (fits : a + 2 ≤ s.cfg.memLen) :
    perform (.memWrite16 a v) s = .next (s.putWord .mem a v, .ok) := by
  rw [perform, writeU16_ok v (show a + 2 ≤ s.len .mem from fits), replyWrite_ok]

theorem perform_memWrite16_error {s : State} {a : Nat} (v : Nat) (out : s.cfg.memLen < a + 2) :
    perform (.memWrite16 a v) s = .next (s, .err (.outOfBounds ⟨.mem, a, .two⟩)) := by
  rw [perform, writeU16_error v (show s.len .mem < a + 2 from out), replyWrite_error]

/-- Settles O39: each command's answer in range and out of range, with the bytes that `putByte` and `putWord` change. -/
theorem memoryPortServesTheAccessors : Obligations.MemoryPortServesTheAccessors := by
  refine fun s a => ⟨perform_memRead8_ok, fun fits => ?_, fun fits v => ?_, fun fits v => ?_,
    fun out => ⟨perform_memRead8_error out, fun v => perform_memWrite8_error v out⟩,
    fun out => ⟨perform_memRead16_error out, fun v => perform_memWrite16_error v out⟩⟩
  · rw [perform_memRead16_ok fits, State.wordAt_eq_bytes]
  · refine ⟨_, perform_memWrite8_ok v fits, s.putByte_cfg _ _ _, s.putByte_mem_regfile a v,
      ⟨s.putByte_halted _ _ _, s.putByte_fault _ _ _⟩, fun b => ?_⟩
    simp [State.byteAt_putByte]
  · refine ⟨_, perform_memWrite16_ok v fits, s.putWord_cfg _ _ _, s.putWord_mem_regfile a v,
      ⟨s.putWord_halted _ _ _, s.putWord_fault _ _ _⟩, fun b => ?_⟩
    simp [State.byteAt_putWord_stores]

/-! ### The fetch commands -/

theorem perform_fetch8_ok {s : State} (h : s.halted = false) (fits : (s.getReg .ip).toNat < s.cfg.memLen) :
    perform .fetch8 s =
      .next (s.setReg .ip ((s.getReg .ip).toNat + 1), .okByte (s.byteAt .mem (s.getReg .ip).toNat)) := by
  rw [perform, whenRunning_running _ h, fetch8_eq, if_pos (show _ < s.len .mem from fits), replyAccess_ok]

theorem perform_fetch8_error {s : State} (h : s.halted = false) (out : s.cfg.memLen ≤ (s.getReg .ip).toNat) :
    perform .fetch8 s =
      .next (s.takeError ⟨.mem, (s.getReg .ip).toNat, .one⟩,
        .err (.outOfBounds ⟨.mem, (s.getReg .ip).toNat, .one⟩)) := by
  rw [perform, whenRunning_running _ h, fetch8_eq, if_neg (show ¬ _ < s.len .mem from Nat.not_lt.2 out),
    replyAccess_error]

theorem perform_fetch16_ok {s : State} (h : s.halted = false) (fits : (s.getReg .ip).toNat + 2 ≤ s.cfg.memLen) :
    perform .fetch16 s =
      .next (s.setReg .ip ((s.getReg .ip).toNat + 2), .okWord (s.wordAt .mem (s.getReg .ip).toNat)) := by
  rw [perform, whenRunning_running _ h, fetch16_eq, if_pos (show _ ≤ s.len .mem from fits), replyAccess_ok]

theorem perform_fetch16_error {s : State} (h : s.halted = false) (out : s.cfg.memLen < (s.getReg .ip).toNat + 2) :
    perform .fetch16 s =
      .next (s.takeError ⟨.mem, (s.getReg .ip).toNat, .two⟩,
        .err (.outOfBounds ⟨.mem, (s.getReg .ip).toNat, .two⟩)) := by
  rw [perform, whenRunning_running _ h, fetch16_eq, if_neg (show ¬ _ ≤ s.len .mem from Nat.not_le.2 out),
    replyAccess_error]

/-- What a `FETCH8` command can answer. -/
theorem perform_fetch8_cases {s t : State} {r : Response} (h : perform .fetch8 s = .next (t, r)) :
    (s.halted = true ∧ t = s ∧ r = .err (.coreHalted s.fault)) ∨
      (s.halted = false ∧ s.cfg.memLen ≤ (s.getReg .ip).toNat ∧ t = s.takeError ⟨.mem, (s.getReg .ip).toNat, .one⟩ ∧
        r = .err (.outOfBounds ⟨.mem, (s.getReg .ip).toNat, .one⟩)) ∨
      (s.halted = false ∧ (s.getReg .ip).toNat < s.cfg.memLen ∧ t = s.setReg .ip ((s.getReg .ip).toNat + 1) ∧
        r = .okByte (s.byteAt .mem (s.getReg .ip).toNat)) := by
  cases hh : s.halted with
  | true =>
    cases (whenRunning_halted _ hh).symm.trans h
    exact .inl ⟨rfl, rfl, rfl⟩
  | false =>
    rcases Nat.lt_or_ge (s.getReg .ip).toNat s.cfg.memLen with fits | out
    · cases (perform_fetch8_ok hh fits).symm.trans h
      exact .inr (.inr ⟨rfl, fits, rfl, rfl⟩)
    · cases (perform_fetch8_error hh out).symm.trans h
      exact .inr (.inl ⟨rfl, out, rfl, rfl⟩)

/-- What a `FETCH16` command can answer. -/
theorem perform_fetch16_cases {s t : State} {r : Response} (h : perform .fetch16 s = .next (t, r)) :
    (s.halted = true ∧ t = s ∧ r = .err (.coreHalted s.fault)) ∨
      (s.halted = false ∧ s.cfg.memLen < (s.getReg .ip).toNat + 2 ∧ t = s.takeError ⟨.mem, (s.getReg .ip).toNat, .two⟩ ∧
        r = .err (.outOfBounds ⟨.mem, (s.getReg .ip).toNat, .two⟩)) ∨
      (s.halted = false ∧ (s.getReg .ip).toNat + 2 ≤ s.cfg.memLen ∧ t = s.setReg .ip ((s.getReg .ip).toNat + 2) ∧
        r = .okWord (s.wordAt .mem (s.getReg .ip).toNat)) := by
  cases hh : s.halted with
  | true =>
    cases (whenRunning_halted _ hh).symm.trans h
    exact .inl ⟨rfl, rfl, rfl⟩
  | false =>
    rcases Nat.lt_or_ge s.cfg.memLen ((s.getReg .ip).toNat + 2) with out | fits
    · cases (perform_fetch16_error hh out).symm.trans h
      exact .inr (.inl ⟨rfl, out, rfl, rfl⟩)
    · cases (perform_fetch16_ok hh fits).symm.trans h
      exact .inr (.inr ⟨rfl, fits, rfl, rfl⟩)

@[simp] theorem getReg_putWord_mem (s : State) (r : Reg) (a v : Nat) :
    (s.putWord .mem a v).getReg r = s.getReg r := rfl

/-- Settles O40: the write leaves `ip` and the latch, so the fetch reads in range what was written at its address. -/
theorem fetchSeesHostWrites : Obligations.FetchSeesHostWrites := by
  rintro s _ hrun rfl
  refine ⟨fun fits v => ?_, fun fits v => ?_⟩
  · have hrun' : (s.putByte .mem (s.getReg .ip).toNat v).halted = false := by simpa using hrun
    have hfetch := perform_fetch8_ok hrun' (by simpa using fits)
    have hstep := step_fetched hrun' (by simpa [State.len] using fits)
    rw [getReg_putByte_mem, State.byteAt_putByte_same] at hfetch hstep
    exact ⟨_, perform_memWrite8_ok v fits, ⟨_, hfetch⟩, hstep⟩
  · have hrun' : (s.putWord .mem (s.getReg .ip).toNat v.toNat).halted = false := by simpa using hrun
    have hfetch := perform_fetch16_ok hrun' (by simpa using fits)
    rw [getReg_putWord_mem, State.wordAt_putWord_same, ofNat_toNat16] at hfetch
    exact ⟨_, _, perform_memWrite16_ok v.toNat fits, hfetch⟩

/-! ### Who writes main memory -/

theorem sameMemory_setReg (s : State) (r : Reg) (v : Nat) : SameMemory s (s.setReg r v) := byteAt_mem_setReg s r v

theorem sameMemory_takeError (s : State) (e : AccessInfo) : SameMemory s (s.takeError e) :=
  fun a => s.takeError_byteAt .mem a e

theorem SameMemory.refl (s : State) : SameMemory s s := fun _ => rfl

/-- An instruction ends in the state as it was, with one register written, or with an error latched. -/
theorem exec_sameMemory {i : Instr} {s t : State} (h : exec i s = .next t) : SameMemory s t := by
  cases i with
  | movLitR1 imm | movLitR2 imm =>
    cases h
    exact sameMemory_setReg _ _ _
  | unrecognized op =>
    cases h
    exact .refl s
  | addRegReg ra rb =>
    rcases Nat.lt_or_ge ra.toNat 10 with hra | hra
    · rcases Nat.lt_or_ge rb.toNat 10 with hrb | hrb
      · obtain ⟨a, ha, -⟩ := Reg.exists_index hra
        obtain ⟨b, hb, -⟩ := Reg.exists_index hrb
        cases (exec_addRegReg_ok s ha.symm hb.symm).symm.trans h
        exact sameMemory_setReg _ _ _
      · cases (exec_addRegReg_rb s hra hrb).symm.trans h
        exact sameMemory_takeError _ _
    · cases (exec_addRegReg_ra s rb hra).symm.trans h
      exact sameMemory_takeError _ _

theorem step_sameMemory {s t : State} (h : step s = .next t) : SameMemory s t := (step_frame h).2.1

theorem executeOpcode_sameMemory {op : Byte} {s t : State} (h : executeOpcode op s = .next t) : SameMemory s t :=
  (executeOpcode_cases h).frame.2.1

/-- A host-port read leaves the state as it was (R40, R63). -/
theorem replyRead_state {α : Type} {s t : State} {value : α → Response} {x : Except AccessInfo α} {r : Response}
    (h : replyRead s value x = .next (t, r)) : t = s := by
  cases x <;> (cases h; rfl)

theorem performGetReg_state {sel : Nat} {s t : State} {r : Response} (h : performGetReg sel s = .next (t, r)) :
    t = s := by
  rcases Nat.lt_or_ge sel 10 with hsel | hsel
  · obtain ⟨reg, rfl, -⟩ := Reg.exists_index hsel
    cases (performGetReg_index reg s).symm.trans h
    rfl
  · cases (performGetReg_unknown hsel s).symm.trans h
    rfl

theorem performSetReg_sameMemory {sel v : Nat} {s t : State} {r : Response}
    (h : performSetReg sel v s = .next (t, r)) : SameMemory s t := by
  rcases Nat.lt_or_ge sel 10 with hsel | hsel
  · obtain ⟨reg, rfl, -⟩ := Reg.exists_index hsel
    cases (performSetReg_index reg v s).symm.trans h
    exact sameMemory_setReg _ _ _
  · cases (performSetReg_unknown hsel v s).symm.trans h
    exact .refl _

/-- Command by command: a core command leaves what its instruction or its fetch leaves, and of the host ports only the
two memory writes reach main memory. -/
theorem perform_sameMemory {c : Command} {s t : State} {r : Response} (h : perform c s = .next (t, r))
    (h8 : ∀ a v, c ≠ .memWrite8 a v) (h16 : ∀ a v, c ≠ .memWrite16 a v) : SameMemory s t := by
  cases c with
  | step =>
    obtain ⟨-, rfl, -⟩ | ⟨-, hs, -⟩ := perform_step_cases h
    · exact .refl _
    · exact step_sameMemory hs
  | exec op =>
    obtain ⟨-, rfl, -⟩ | ⟨-, hx, -⟩ := perform_exec_cases h
    · exact .refl _
    · exact executeOpcode_sameMemory hx
  | fetch8 =>
    obtain ⟨-, rfl, -⟩ | ⟨-, -, rfl, -⟩ | ⟨-, -, rfl, -⟩ := perform_fetch8_cases h
    · exact .refl _
    · exact sameMemory_takeError _ _
    · exact sameMemory_setReg _ _ _
  | fetch16 =>
    obtain ⟨-, rfl, -⟩ | ⟨-, -, rfl, -⟩ | ⟨-, -, rfl, -⟩ := perform_fetch16_cases h
    · exact .refl _
    · exact sameMemory_takeError _ _
    · exact sameMemory_setReg _ _ _
  | getReg sel => exact performGetReg_state h ▸ .refl s
  | setReg sel v => exact performSetReg_sameMemory h
  | memRead8 | memRead16 => exact replyRead_state h ▸ .refl s
  | memWrite8 a v => exact absurd rfl (h8 a v)
  | memWrite16 a v => exact absurd rfl (h16 a v)
  | debug =>
    cases h
    exact .refl s
  | reset =>
    cases h
    exact State.byteAt_mem_congr s.resetCore_mem

/-- Settles O26: the three frames, of an instruction, a step and a command. -/
theorem onlyHostWritesChangeMainMemory : Obligations.OnlyHostWritesChangeMainMemory :=
  ⟨fun _ _ _ => exec_sameMemory, fun _ _ => step_sameMemory, fun _ _ _ _ => perform_sameMemory⟩

/-! ### The core's reach -/

/-- Two states that agree within the core's reach execute an opcode the same way: every byte read is at an offset below
65536 or is the second byte of a word that begins there, so the case that holds of one holds of the other. -/
theorem ExecuteCase.sameWithinReach {op : Byte} {s s' t : State} {n : Nat} (hc : ExecuteCase op s n t)
    (h : SameWithinReach s s') (hn : n < 65536) : ∃ t', ExecuteCase op s' n t' ∧ SameWithinReach t t' := by
  have hk : dispatch s'.cfg.opcodes op = dispatch s.cfg.opcodes op := by rw [h.cfg]
  have hlen : s'.len .mem = s.len .mem := h.len .mem
  have hra : s'.byteAt .mem n = s.byteAt .mem n := h.mem n (by omega)
  have hrb : s'.byteAt .mem ((n + 1) % 65536) = s.byteAt .mem ((n + 1) % 65536) := h.mem _ (by omega)
  have hip2 : SameWithinReach ((s.setReg .ip (n + 1)).setReg .ip ((n + 1) % 65536 + 1))
      ((s'.setReg .ip (n + 1)).setReg .ip ((n + 1) % 65536 + 1)) := (h.setReg _ _).setReg _ _
  cases hc with
  | movLitR1 k fits =>
    refine ⟨_, .movLitR1 (hk.trans k) (hlen ▸ fits), ?_⟩
    rw [h.wordAt hn]
    exact (h.setReg _ _).setReg _ _
  | movLitR2 k fits =>
    refine ⟨_, .movLitR2 (hk.trans k) (hlen ▸ fits), ?_⟩
    rw [h.wordAt hn]
    exact (h.setReg _ _).setReg _ _
  | movLitR1Fault k out => exact ⟨_, .movLitR1Fault (hk.trans k) (hlen ▸ out), h.takeError _⟩
  | movLitR2Fault k out => exact ⟨_, .movLitR2Fault (hk.trans k) (hlen ▸ out), h.takeError _⟩
  | addFetchRa k out => exact ⟨_, .addFetchRa (hk.trans k) (hlen ▸ out), h.takeError _⟩
  | addFetchRb k fits out =>
    exact ⟨_, .addFetchRb (hk.trans k) (hlen ▸ fits) (hlen ▸ out), (h.setReg _ _).takeError _⟩
  | addReadRa k fits fits' bad =>
    refine ⟨_, .addReadRa (hk.trans k) (hlen ▸ fits) (hlen ▸ fits') (hra ▸ bad), ?_⟩
    rw [hra]
    exact hip2.takeError _
  | addReadRb k fits fits' good bad =>
    refine ⟨_, .addReadRb (hk.trans k) (hlen ▸ fits) (hlen ▸ fits') (hra ▸ good) (hrb ▸ bad), ?_⟩
    rw [hrb]
    exact hip2.takeError _
  | add a b k fits fits' ha hb =>
    refine ⟨_, .add a b (hk.trans k) (hlen ▸ fits) (hlen ▸ fits') (hra ▸ ha) (hrb ▸ hb), ?_⟩
    rw [hip2.getReg a, hip2.getReg b]
    exact hip2.setReg _ _
  | unrecognized k => exact ⟨_, .unrecognized (hk.trans k), h⟩

/-- Settles O28: both states read the same opcode or both fail to, and then execute it the same way. -/
theorem stepIgnoresMemoryBeyondReach : Obligations.StepIgnoresMemoryBeyondReach := by
  intro s s' t h hs
  have hip : s'.getReg .ip = s.getReg .ip := h.getReg .ip
  have hlen : s'.len .mem = s.len .mem := h.len .mem
  obtain ⟨hrun, ⟨out, rfl⟩ | ⟨fits, hc⟩⟩ := step_cases hs
  · refine ⟨_, step_fetch_error (h.latch.1.trans hrun) (by rwa [hip, hlen]), ?_⟩
    rw [hip]
    exact h.takeError _
  · obtain ⟨t', hc', ht⟩ := hc.sameWithinReach (h.setReg _ _) (Nat.mod_lt _ (by decide))
    refine ⟨t', ?_, ht⟩
    rw [step_fetched (h.latch.1.trans hrun) (by rwa [hip, hlen]), hip, h.mem _ (by omega)]
    exact executeOpcode_of_case (ip_setReg s' _) hc'

end Sys2Proof.Machine

/-! The encoding (spec/30_encoding.md R80 to R89): when the decoder answers an instruction, said once by `DecodeCase`;
that it and the encoder are inverse to each other; and the table words and assembled statements that follow. -/

namespace Sys2Proof

/-! ### When the decoder answers an instruction -/

/-- `DecodeCase oc bytes i rest`: `bytes` begins with an opcode byte of `i`'s row and `i`'s operand bytes, and `rest`
follows (R81, R85). -/
inductive DecodeCase (oc : Opcodes) : List Byte → Instr → List Byte → Prop where
  | movLitR1 {op : Byte} (k : dispatch oc op = .movLitR1) (b1 b2 : Byte) (rest : List Byte) :
      DecodeCase oc (op :: b1 :: b2 :: rest) (.movLitR1 (be16 b1 b2)) rest
  | movLitR2 {op : Byte} (k : dispatch oc op = .movLitR2) (b1 b2 : Byte) (rest : List Byte) :
      DecodeCase oc (op :: b1 :: b2 :: rest) (.movLitR2 (be16 b1 b2)) rest
  | addRegReg {op : Byte} (k : dispatch oc op = .addRegReg) (b1 b2 : Byte) (rest : List Byte) :
      DecodeCase oc (op :: b1 :: b2 :: rest) (.addRegReg b1 b2) rest
  | unrecognized {op : Byte} (k : dispatch oc op = .unrecognized) (rest : List Byte) :
      DecodeCase oc (op :: rest) (.unrecognized op) rest

theorem decode_of_case {oc : Opcodes} {bytes rest : List Byte} {i : Instr} (h : DecodeCase oc bytes i rest) :
    decode oc bytes = .ok (i, rest) := by
  cases h with
  | movLitR1 k => simp [decode, k]
  | movLitR2 k => simp [decode, k]
  | addRegReg k => simp [decode, k]
  | unrecognized k => simp [decode, k]

theorem decode_cases {oc : Opcodes} {bytes rest : List Byte} {i : Instr} (h : decode oc bytes = .ok (i, rest)) :
    DecodeCase oc bytes i rest := by
  cases bytes with
  | nil => cases h
  | cons op bs =>
    simp only [decode] at h
    split at h
    case h_1 k => cases h; exact .movLitR1 k _ _ _
    case h_2 k => cases h; exact .movLitR2 k _ _ _
    case h_3 k => cases h; exact .addRegReg k _ _ _
    case h_4 k => cases h; exact .unrecognized k _
    case h_5 => cases h

/-! ### The decoder and the encoder are inverse to each other -/

theorem encode_decodeCase {oc : Opcodes} (hd : oc.Distinct) {i : Instr} (hi : i.WellFormed oc) (rest : List Byte) :
    DecodeCase oc (encode oc i ++ rest) i rest := by
  cases i with
  | movLitR1 imm => simpa [encode] using DecodeCase.movLitR1 (dispatch_movLitR1 oc) (hiByte imm) (loByte imm) rest
  | movLitR2 imm => simpa [encode] using DecodeCase.movLitR2 (dispatch_movLitR2 hd) (hiByte imm) (loByte imm) rest
  | addRegReg ra rb => exact .addRegReg (dispatch_addRegReg hd) ra rb rest
  | unrecognized op => exact .unrecognized (dispatch_unrecognized hi) rest

theorem decode_encode_append {oc : Opcodes} (hd : oc.Distinct) {i : Instr} (hi : i.WellFormed oc) (rest : List Byte) :
    decode oc (encode oc i ++ rest) = .ok (i, rest) :=
  decode_of_case (encode_decodeCase hd hi rest)

theorem decode_encode {oc : Opcodes} (hd : oc.Distinct) {i : Instr} (hi : i.WellFormed oc) :
    decode oc (encode oc i) = .ok (i, []) := by
  simpa using decode_encode_append hd hi []

/-- The byte of an unrecognized opcode is none of the three by the dispatch (R87); every other instruction is
well-formed whatever its operands (R88). -/
theorem DecodeCase.wellFormed {oc : Opcodes} {bytes rest : List Byte} {i : Instr} (h : DecodeCase oc bytes i rest) :
    i.WellFormed oc := by
  cases h with
  | movLitR1 => trivial
  | movLitR2 => trivial
  | addRegReg => trivial
  | unrecognized k => exact unrecognized_of_dispatch k

/-- The dispatch fixes the opcode byte, and `be16` keeps both bytes of a literal. -/
theorem DecodeCase.encode_append {oc : Opcodes} {bytes rest : List Byte} {i : Instr}
    (h : DecodeCase oc bytes i rest) : encode oc i ++ rest = bytes := by
  cases h with
  | movLitR1 k => simp [encode, eq_movLitR1_of_dispatch k]
  | movLitR2 k => simp [encode, eq_movLitR2_of_dispatch k]
  | addRegReg k => simp [encode, eq_addRegReg_of_dispatch k]
  | unrecognized => rfl

/-- Settles O5: what the encoder writes for each instruction is a decoder case, since distinct opcodes dispatch to their
own rows. -/
theorem decodeOfEncodeIsIdentity : Obligations.DecodeOfEncodeIsIdentity :=
  fun _ _ rest hd hi => decode_encode_append hd hi rest

/-- Settles O6: every case of the decoder is well-formed and encodes back to the bytes read. -/
theorem encodeOfDecodeIsIdentity : Obligations.EncodeOfDecodeIsIdentity :=
  fun _ _ _ _ h => ⟨(decode_cases h).wellFormed, (decode_cases h).encode_append⟩

/-- Settles O4: one decoder case per opcode row, with `be16` as `byte1 * 256 + byte2`. -/
theorem opcodeMapIsComplete : Obligations.OpcodeMapIsComplete := by
  intro oc b1 b2 rest hd
  rw [ofNat_be16]
  refine ⟨?movLitR1, ?movLitR2, ?addRegReg, fun op h1 h2 h3 => ?unrecognized⟩
  case movLitR1 => exact decode_of_case (.movLitR1 (dispatch_movLitR1 oc) b1 b2 rest)
  case movLitR2 => exact decode_of_case (.movLitR2 (dispatch_movLitR2 hd) b1 b2 rest)
  case addRegReg => exact decode_of_case (.addRegReg (dispatch_addRegReg hd) b1 b2 rest)
  case unrecognized => exact decode_of_case (.unrecognized (dispatch_unrecognized ⟨h1, h2, h3⟩) rest)

/-! ### Table words -/

theorem standard_distinct : Opcodes.standard.Distinct := by decide

/-- A table word whose bytes begin with the encoding of an instruction is read as that instruction. -/
theorem decodeTableWord_of_encode {nbits w : Nat} {i : Instr} (hi : i.WellFormed Opcodes.standard) (rest : List Byte)
    (h : tableBytes nbits w = encode Opcodes.standard i ++ rest) : decodeTableWord nbits w = some i := by
  rw [decodeTableWord, h, decode_encode_append standard_distinct hi]

/-- Settles O7: the bytes of each word are the encoding of its instruction, then zeros up to three bytes. -/
theorem tableWordsDecode : Obligations.TableWordsDecode := by
  refine ⟨?_, ?_, ?_, ?_, ?_⟩
  · exact decodeTableWord_of_encode trivial [] (by decide)
  · exact decodeTableWord_of_encode trivial [] (by decide)
  · exact decodeTableWord_of_encode trivial [] (by decide)
  · exact decodeTableWord_of_encode (by decide) [0, 0] (by decide)
  · exact decodeTableWord_of_encode (by decide) [0, 0] (by decide)

end Sys2Proof

namespace Sys2Proof.Machine

/-! ### Assembled statements -/

/-- A register name stands for its index (R89), which fits in a byte. -/
theorem AsmIndex.byte_name_toNat (r : Reg) : (AsmIndex.name r).byte.toNat = r.index :=
  Nat.mod_eq_of_lt (r.index_lt.trans (by decide))

/-- Settles O8: a statement of R89 places the encoding of its instruction, which decodes to it. -/
theorem assembledStatementsDecode : Obligations.AssembledStatementsDecode := by
  intro oc hd
  refine ⟨fun imm => ?_, fun imm => ?_, fun a b => ?_, fun a b => ?_⟩
  · exact decode_encode hd (i := .movLitR1 imm) trivial
  · exact decode_encode hd (i := .movLitR2 imm) trivial
  · exact decode_encode hd (i := .addRegReg a b) trivial
  · exact ⟨_, _, AsmIndex.byte_name_toNat a, AsmIndex.byte_name_toNat b,
      decode_encode hd (i := .addRegReg (AsmIndex.name a).byte (AsmIndex.name b).byte) trivial⟩

end Sys2Proof.Machine

/-! Fetch and decode (spec/40_fetch_decode.md R100 to R109): when a step goes on, what the unrecognized opcode, the fetch
commands, `EXEC` and `STEP` leave and answer, and that a step runs the instruction its bytes decode to. -/

namespace Sys2Proof

/-- An instruction is decided by as many bytes as its opcode says (R80, R86). -/
theorem DecodeCase.take {oc : Opcodes} {op : Byte} {bytes rest : List Byte} {i : Instr}
    (h : DecodeCase oc (op :: bytes) i rest) :
    DecodeCase oc ((op :: bytes).take (dispatch oc op).length) i [] := by
  cases h with
  | movLitR1 k b1 b2 => rw [k]; exact .movLitR1 k b1 b2 []
  | movLitR2 k b1 b2 => rw [k]; exact .movLitR2 k b1 b2 []
  | addRegReg k b1 b2 => rw [k]; exact .addRegReg k b1 b2 []
  | unrecognized k => rw [k]; exact .unrecognized k []

end Sys2Proof

namespace Sys2Proof.Machine

/-! ### When a step goes on -/

/-- An unhalted step fails its opcode fetch or executes what it fetched, and either ends in a next state. -/
theorem step_total {s : State} (hrun : s.halted = false) : ∃ t, step s = .next t := by
  rcases Nat.lt_or_ge (s.getReg .ip).toNat (s.len .mem) with fits | out
  · obtain ⟨t, ht, -⟩ := executeOpcode_total (s.byteAt .mem (s.getReg .ip).toNat)
      (s.setReg .ip ((s.getReg .ip).toNat + 1))
    exact ⟨t, (step_fetched hrun fits).trans ht⟩
  · exact ⟨_, step_fetch_error hrun out⟩

/-- Settles O23: the refusal of R101 is the only outcome that is not a next state. -/
theorem stepStopsExactlyWhenHalted : Obligations.StepStopsExactlyWhenHalted := fun _ => ⟨step_total, step_halted⟩

/-- Settles O22: the two outcomes of the opcode fetch. -/
theorem stepFetchesThenExecutes : Obligations.StepFetchesThenExecutes := by
  refine fun s hrun => ⟨step_fetched hrun, fun out => ?_⟩
  obtain ⟨hframe, hlatch⟩ := onlyLatch_takeError s ⟨.mem, (s.getReg .ip).toNat, .one⟩
  exact ⟨_, step_fetch_error hrun out, hlatch, hframe⟩

/-! ### The unrecognized opcode -/

theorem executeOpcode_unrecognized {op : Byte} {s : State} (h : s.cfg.opcodes.Unrecognized op) :
    executeOpcode op s = .next s :=
  executeOpcode_of_case rfl (.unrecognized (dispatch_unrecognized h))

/-- Settles O16: the handler leaves the state it gets, which under `STEP` is the one the opcode fetch leaves. -/
theorem unrecognizedOpcodeIsNoOp : Obligations.UnrecognizedOpcodeIsNoOp := by
  refine fun s op => ⟨exec_unrecognized op s, fun h1 h2 h3 => ?_⟩
  have hop : s.cfg.opcodes.Unrecognized op := ⟨h1, h2, h3⟩
  refine ⟨executeOpcode_unrecognized hop, fun hrun fits hbyte => ?_⟩
  refine ⟨s.setReg .ip ((s.getReg .ip).toNat + 1), ?_, getReg_setReg_same _ _ _, onlyRegs_setReg _ _ _⟩
  rw [step_fetched hrun fits, hbyte]
  exact executeOpcode_unrecognized (by simpa using hop)

/-! ### The fetch commands -/

/-- Settles O33: for each command the fetch fits, and is answered with `ip` moved on, or it fails and latches. -/
theorem fetchCommandsAdvanceIp : Obligations.FetchCommandsAdvanceIp := by
  refine fun s hrun => ⟨?fetch8, ?fetch16⟩
  case fetch8 =>
    rcases Nat.lt_or_ge (s.getReg .ip).toNat s.cfg.memLen with fits | out
    · exact ⟨_, _, perform_fetch8_ok hrun fits,
        fun _ => ⟨rfl, getReg_setReg_same _ _ _, onlyRegs_setReg _ _ _⟩, fun out => absurd fits (Nat.not_lt.2 out)⟩
    · obtain ⟨hframe, hlatch⟩ := onlyLatch_takeError s ⟨.mem, (s.getReg .ip).toNat, .one⟩
      exact ⟨_, _, perform_fetch8_error hrun out, fun fits => absurd fits (Nat.not_lt.2 out),
        fun _ => ⟨rfl, hlatch, hframe⟩⟩
  case fetch16 =>
    rw [← State.wordAt_eq_bytes]
    rcases Nat.lt_or_ge s.cfg.memLen ((s.getReg .ip).toNat + 2) with out | fits
    · obtain ⟨hframe, hlatch⟩ := onlyLatch_takeError s ⟨.mem, (s.getReg .ip).toNat, .two⟩
      exact ⟨_, _, perform_fetch16_error hrun out, fun fits => absurd out (Nat.not_lt.2 fits),
        fun _ => ⟨rfl, hlatch, hframe⟩⟩
    · exact ⟨_, _, perform_fetch16_ok hrun fits,
        fun _ => ⟨rfl, getReg_setReg_same _ _ _, onlyRegs_setReg _ _ _⟩, fun out => absurd out (Nat.not_lt.2 fits)⟩

/-! ### `EXEC` and `STEP` -/

theorem SameLatch.refl (s : State) : SameLatch s s := ⟨rfl, rfl⟩

theorem SameLatch.trans {s t u : State} (h : SameLatch s t) (h' : SameLatch t u) : SameLatch s u :=
  ⟨h'.1.trans h.1, h'.2.trans h.2⟩

theorem sameLatch_setReg (s : State) (r : Reg) (v : Nat) : SameLatch s (s.setReg r v) := (onlyRegs_setReg s r v).2

theorem latched_takeError (s : State) (e : AccessInfo) : Latched (s.takeError e) e := (onlyLatch_takeError s e).2

/-- The execution of an opcode completes with the latch as it was, or latches an error (R156). -/
theorem ExecuteCase.sameLatch_or_latched {op : Byte} {s t : State} {n : Nat} (hc : ExecuteCase op s n t) :
    SameLatch s t ∨ ∃ e, Latched t e := by
  cases hc with
  | movLitR1 | movLitR2 => exact .inl ((sameLatch_setReg _ _ _).trans (sameLatch_setReg _ _ _))
  | add =>
    exact .inl (((sameLatch_setReg _ _ _).trans (sameLatch_setReg _ _ _)).trans (sameLatch_setReg _ _ _))
  | unrecognized => exact .inl (.refl s)
  | movLitR1Fault | movLitR2Fault | addFetchRa | addFetchRb | addReadRa | addReadRb =>
    exact .inr ⟨_, latched_takeError _ _⟩

theorem step_sameLatch_or_latched {s t : State} (hs : step s = .next t) : SameLatch s t ∨ ∃ e, Latched t e := by
  obtain ⟨-, ⟨-, rfl⟩ | ⟨-, hc⟩⟩ := step_cases hs
  · exact .inr ⟨_, latched_takeError _ _⟩
  · exact hc.sameLatch_or_latched.imp_left (sameLatch_setReg _ _ _).trans

theorem endResponse_latched {t : State} {e : AccessInfo} (h : Latched t e) : t.endResponse = .err (.outOfBounds e) := by
  simp [State.endResponse, h.1, h.2]

/-- A core command that ran from `s` to `t` answers `OK` without an error, and otherwise the error it latched. -/
theorem endResponse_answers {s t : State} (hrun : s.halted = false) (h : SameLatch s t ∨ ∃ e, Latched t e) :
    (t.halted = false → t.endResponse = .ok) ∧
      (t.halted = true → ∃ e, t.endResponse = .err (.outOfBounds e) ∧ Latched t e) := by
  refine ⟨endResponse_running, fun hhalt => ?_⟩
  obtain ⟨hsame, -⟩ | ⟨e, he⟩ := h
  · rw [hsame, hrun] at hhalt
    cases hhalt
  · exact ⟨e, endResponse_latched he, he⟩

theorem perform_step_of_next {s t : State} (hs : step s = .next t) :
    perform .step s = .next (t, t.endResponse) := by
  rw [perform, hs, replyOutcome_next]

theorem perform_step_halted {s : State} (h : s.halted = true) :
    perform .step s = .next (s, .err (.coreHalted s.fault)) := by
  rw [perform, step_halted h, replyOutcome]

theorem perform_exec_of_next {op : Byte} {s t : State} (hrun : s.halted = false) (hx : executeOpcode op s = .next t) :
    perform (.exec op) s = .next (t, t.endResponse) := by
  rw [perform, whenRunning_running _ hrun, hx, replyOutcome_next]

/-- Settles O35: the response is read off the latch of the state the step ends in. -/
theorem stepCommandAnswersTheStep : Obligations.StepCommandAnswersTheStep := by
  refine fun s => ⟨fun hrun => ?_, perform_step_halted⟩
  obtain ⟨t, ht⟩ := step_total hrun
  exact ⟨t, _, perform_step_of_next ht, ht, endResponse_answers hrun (step_sameLatch_or_latched ht)⟩

/-- Settles O34: as for `STEP`, with the execution of the opcode given; a literal move whose literal fits is one of its
cases, and an unrecognized opcode leaves the state as it was. -/
theorem execCommandExecutesTheGivenOpcode : Obligations.ExecCommandExecutesTheGivenOpcode := by
  refine fun s op hrun => ⟨?anyOpcode, fun hop fits => ?movLitR1, fun hop => ?unrecognized⟩
  case anyOpcode =>
    obtain ⟨t, ht, hc⟩ := executeOpcode_total op s
    exact ⟨t, _, perform_exec_of_next hrun ht, ht, endResponse_answers hrun hc.sameLatch_or_latched⟩
  case movLitR1 =>
    have hx := executeOpcode_of_case rfl (.movLitR1 (hop ▸ dispatch_movLitR1 _) fits)
    have hframe := (onlyRegs_setReg s .ip ((s.getReg .ip).toNat + 2)).trans
      (onlyRegs_setReg _ .r1 (s.wordAt .mem (s.getReg .ip).toNat).toNat)
    refine ⟨_, ?_, ?_, ?_, hframe⟩
    · rw [perform_exec_of_next hrun hx, endResponse_running (by simpa using hrun)]
    · rw [getReg_setReg_same, ofNat_toNat16, State.wordAt_eq_bytes]
    · rw [getReg_setReg_ne _ _ (by decide), getReg_setReg_same]
  case unrecognized =>
    rw [perform_exec_of_next hrun (executeOpcode_unrecognized hop), endResponse_running hrun]

/-! ### Every command is answered -/

/-- The command completes, with a state and a response. -/
def Answered (reply : Reply) : Prop := ∃ t r, reply = .next (t, r)

theorem answered_next (t : State) (r : Response) : Answered (.next (t, r)) := ⟨t, r, rfl⟩

/-- A halted core answers its refusal (R101), so only the running core's reply matters. -/
theorem whenRunning_answered {s : State} {reply : Reply} (h : Answered reply) : Answered (whenRunning s reply) := by
  unfold whenRunning
  split
  · exact answered_next _ _
  · exact h

theorem perform_step_answered (s : State) : Answered (perform .step s) := by
  cases hh : s.halted with
  | true => exact ⟨_, _, perform_step_halted hh⟩
  | false =>
    obtain ⟨t, ht⟩ := step_total hh
    exact ⟨_, _, perform_step_of_next ht⟩

theorem replyAccess_answered {α : Type} (value : α → Response) (x : Access α) : Answered (replyAccess value x) := by
  cases x <;> exact answered_next _ _

theorem replyRead_answered {α : Type} (s : State) (value : α → Response) (x : Except AccessInfo α) :
    Answered (replyRead s value x) := by
  cases x <;> exact answered_next _ _

theorem replyWrite_answered (s : State) (x : Except AccessInfo State) : Answered (replyWrite s x) := by
  cases x <;> exact answered_next _ _

theorem performGetReg_answered (sel : Nat) (s : State) : Answered (performGetReg sel s) := by
  unfold performGetReg
  split <;> exact answered_next _ _

theorem performSetReg_answered (sel v : Nat) (s : State) : Answered (performSetReg sel v s) := by
  unfold performSetReg
  split <;> exact answered_next _ _

theorem perform_answered (c : Command) (s : State) : Answered (perform c s) := by
  cases c with
  | step => exact perform_step_answered s
  | exec op =>
    obtain ⟨t, ht, -⟩ := executeOpcode_total op s
    rw [perform, ht]
    exact whenRunning_answered (answered_next _ _)
  | fetch8 | fetch16 => exact whenRunning_answered (replyAccess_answered _ _)
  | getReg sel => exact performGetReg_answered sel s
  | setReg sel v => exact performSetReg_answered sel v s
  | memRead8 | memRead16 => exact replyRead_answered _ _ _
  | memWrite8 | memWrite16 => exact replyWrite_answered _ _
  | debug | reset => exact answered_next _ _

/-- Settles O48, command by command: `executeOpcode` and an unhalted step always end in a next state, and every other
reply is an answer whatever its access gave. -/
theorem everyCommandIsAnswered : Obligations.EveryCommandIsAnswered := perform_answered

/-! ### A step runs the decoded instruction -/

/-- A 16-bit register forgets what a value has beyond 16 bits, so an advance of a wrapped value may wrap later. -/
theorem setReg_mod_add (s : State) (r : Reg) (n k : Nat) : s.setReg r (n % 65536 + k) = s.setReg r (n + k) := by
  have hcut : BitVec.ofNat 16 (n % 65536 + k) = BitVec.ofNat 16 (n + k) := BitVec.eq_of_toNat_eq (by simp)
  simp only [State.setReg, State.putWord, hcut]

/-- A fetch in range that follows a write of `ip`, in a canonical register file: the two writes of `ip` are one. -/
theorem fetch8_setReg_ip {s : State} {n : Nat} (hwf : Memory.wf regfileLen s.regfile) (fits : n % 65536 < s.len .mem) :
    fetch8 (s.setReg .ip n) = .ok (s.byteAt .mem (n % 65536)) (s.setReg .ip (n + 1)) := by
  rw [fetch8_eq, ip_setReg, len_setReg, if_pos fits, byteAt_mem_setReg, setReg_setReg _ _ _ hwf, setReg_mod_add]

theorem fetch16_setReg_ip {s : State} {n : Nat} (hwf : Memory.wf regfileLen s.regfile)
    (fits : n % 65536 + 2 ≤ s.len .mem) :
    fetch16 (s.setReg .ip n) = .ok (s.wordAt .mem (n % 65536)) (s.setReg .ip (n + 2)) := by
  rw [fetch16_eq, ip_setReg, len_setReg, if_pos fits, wordAt_mem_setReg, setReg_setReg _ _ _ hwf, setReg_mod_add]

/-- After the fetch of the opcode at `n`, the operand fetches give the instruction that the bytes they read decode to,
with `ip` past it. -/
theorem fetchOperands_of_decode {s : State} {op : Byte} {i : Instr} {n : Nat} (hwf : Memory.wf regfileLen s.regfile)
    (fits : ∀ a ∈ operandOffsets (dispatch s.cfg.opcodes op) ((n + 1) % 65536), a < s.len .mem)
    (hd : decode s.cfg.opcodes
      (op :: (operandOffsets (dispatch s.cfg.opcodes op) ((n + 1) % 65536)).map (s.byteAt .mem)) = .ok (i, [])) :
    fetchOperands op (s.setReg .ip (n + 1)) = .ok i (s.setReg .ip (n + i.length)) := by
  have hcfg : (s.setReg .ip (n + 1)).cfg.opcodes = s.cfg.opcodes := by rw [State.setReg_cfg]
  rcases hk : dispatch s.cfg.opcodes op <;>
    simp only [hk, operandOffsets, List.map_cons, List.map_nil, List.forall_mem_cons] at fits hd
  case movLitR1 =>
    obtain ⟨-, fits, -⟩ := fits
    cases (decode_of_case (.movLitR1 hk _ _ _)).symm.trans hd
    rw [fetchOperands_movLitR1 (by rwa [hcfg]), fetch16_setReg_ip hwf fits, Access.map_ok]
    rfl
  case movLitR2 =>
    obtain ⟨-, fits, -⟩ := fits
    cases (decode_of_case (.movLitR2 hk _ _ _)).symm.trans hd
    rw [fetchOperands_movLitR2 (by rwa [hcfg]), fetch16_setReg_ip hwf fits, Access.map_ok]
    rfl
  case addRegReg =>
    rw [Nat.mod_add_mod] at fits hd
    obtain ⟨fitsRa, fitsRb, -⟩ := fits
    cases (decode_of_case (.addRegReg hk _ _ _)).symm.trans hd
    rw [fetchOperands_addRegReg (by rwa [hcfg]), fetch8_setReg_ip hwf fitsRa, Access.bind_ok,
      fetch8_setReg_ip hwf fitsRb, Access.map_ok]
    rfl
  case unrecognized =>
    cases (decode_of_case (.unrecognized hk _)).symm.trans hd
    rw [fetchOperands_unrecognized (by rwa [hcfg])]
    rfl

/-- The offsets a step reads: the opcode's, then those of its operands. -/
theorem State.instrOffsets_eq (s : State) :
    s.instrOffsets =
      (s.getReg .ip).toNat :: operandOffsets s.nextKind (((s.getReg .ip).toNat + 1) % 65536) := rfl

theorem step_of_decode {s : State} {i : Instr} (hrun : s.halted = false) (hwf : Memory.wf regfileLen s.regfile)
    (fits : ∀ a ∈ s.instrOffsets, a < s.cfg.memLen)
    (hd : decode s.cfg.opcodes (s.instrOffsets.map (s.byteAt .mem)) = .ok (i, [])) :
    step s = exec i (s.setReg .ip ((s.getReg .ip).toNat + i.length)) := by
  rw [State.instrOffsets_eq, List.forall_mem_cons] at fits
  rw [State.instrOffsets_eq, List.map_cons] at hd
  obtain ⟨fitsOpcode, fitsOperands⟩ := fits
  rw [step_fetched hrun fitsOpcode, executeOpcode, fetchOperands_of_decode hwf fitsOperands hd]

/-- Settles O20: the opcode fetch, then the operand fetches, make up the instruction its bytes decode to. -/
theorem stepRunsTheDecodedInstruction : Obligations.StepRunsTheDecodedInstruction := fun _ _ => step_of_decode

/-! ### The loader -/

@[simp] theorem State.putBytes_nil (s : State) : s.putBytes [] = s := rfl

@[simp] theorem State.putBytes_cons (s : State) (a : Nat) (b : Byte) (cells : List (Nat × Byte)) :
    s.putBytes ((a, b) :: cells) = (s.putByte .mem a b).putBytes cells := rfl

theorem State.putBytes_cfg (s : State) (cells : List (Nat × Byte)) : (s.putBytes cells).cfg = s.cfg := by
  induction cells generalizing s with
  | nil => rfl
  | cons c cells ih => rw [State.putBytes_cons, ih, State.putByte_cfg]

theorem State.putBytes_regfile (s : State) (cells : List (Nat × Byte)) : (s.putBytes cells).regfile = s.regfile := by
  induction cells generalizing s with
  | nil => rfl
  | cons c cells ih => rw [State.putBytes_cons, ih, State.putByte_mem_regfile]

theorem State.byteAt_putBytes_of_notMem {s : State} {a : Nat} {cells : List (Nat × Byte)}
    (h : a ∉ cells.map Prod.fst) : (s.putBytes cells).byteAt .mem a = s.byteAt .mem a := by
  induction cells generalizing s with
  | nil => rfl
  | cons c cells ih =>
    rw [List.map_cons, List.mem_cons, not_or] at h
    rw [State.putBytes_cons, ih h.2, State.byteAt_putByte_ne _ _ _ h.1]

/-- Bytes placed at offsets of which no two are equal are read back there. -/
theorem State.map_byteAt_putBytes_zip {s : State} {offsets : List Nat} {bytes : List Byte} (hnd : offsets.Nodup)
    (hlen : offsets.length = bytes.length) :
    offsets.map ((s.putBytes (offsets.zip bytes)).byteAt .mem) = bytes := by
  induction offsets generalizing s bytes with
  | nil => exact (List.length_eq_zero_iff.1 hlen.symm).symm
  | cons a offsets ih =>
    cases bytes with
    | nil => cases hlen
    | cons b bytes =>
      have hlen' : offsets.length = bytes.length := Nat.succ.inj hlen
      have ha : a ∉ (offsets.zip bytes).map Prod.fst := by
        rw [List.map_fst_zip hlen'.le]
        exact (List.nodup_cons.1 hnd).1
      rw [List.zip_cons_cons, State.putBytes_cons, List.map_cons, State.byteAt_putBytes_of_notMem ha,
        State.byteAt_putByte_same, ih (List.nodup_cons.1 hnd).2 hlen']

theorem State.placeOffsets_cons (s : State) (op : Byte) :
    ∃ b c, s.placeOffsets op = [(s.getReg .ip).toNat, b, c] := by
  unfold State.placeOffsets
  cases dispatch s.cfg.opcodes op <;> exact ⟨_, _, rfl⟩

/-- Three successive addresses are distinct, `ip` wrapping or not. -/
theorem State.placeOffsets_nodup (s : State) (op : Byte) : (s.placeOffsets op).Nodup := by
  have hip := (s.getReg .ip).isLt
  unfold State.placeOffsets
  cases dispatch s.cfg.opcodes op <;>
    simp only [operandOffsets, List.nodup_cons, List.mem_cons, List.not_mem_nil, or_false, not_or, not_false_eq_true,
      List.nodup_nil, and_true] <;>
    omega

theorem State.placeOffsets_congr {s t : State} (hip : t.getReg .ip = s.getReg .ip)
    (hoc : t.cfg.opcodes = s.cfg.opcodes) (op : Byte) : t.placeOffsets op = s.placeOffsets op := by
  simp only [State.placeOffsets, hip, hoc]

/-- A step reads the loader's offsets for its opcode, as many as its instruction is long. -/
theorem State.instrOffsets_eq_take (s : State) :
    s.instrOffsets = (s.placeOffsets (s.byteAt .mem (s.getReg .ip).toNat)).take s.nextKind.length := by
  rw [State.instrOffsets_eq, State.placeOffsets]
  unfold State.nextKind
  cases dispatch s.cfg.opcodes (s.byteAt .mem (s.getReg .ip).toNat) <;> rfl

/-- The `MEM_LEN` the loader asks for covers every offset. -/
theorem foldl_max_succ_bounds (offsets : List Nat) (n : Nat) :
    n ≤ offsets.foldl (fun n a => max n (a + 1)) n ∧ ∀ a ∈ offsets, a < offsets.foldl (fun n a => max n (a + 1)) n := by
  induction offsets generalizing n with
  | nil => exact ⟨le_rfl, nofun⟩
  | cons b offsets ih =>
    obtain ⟨hn, hmem⟩ := ih (max n (b + 1))
    exact ⟨(le_max_left _ _).trans hn, List.forall_mem_cons.2 ⟨(le_max_right n (b + 1)).trans hn, hmem⟩⟩

theorem State.placeWord_opcodes (s : State) (nbits w : Nat) : (s.placeWord nbits w).cfg.opcodes = s.cfg.opcodes := by
  simp only [State.placeWord, State.putBytes_cfg, State.growMem]

theorem State.placeWord_regfile (s : State) (nbits w : Nat) : (s.placeWord nbits w).regfile = s.regfile := by
  simp only [State.placeWord, State.putBytes_regfile, State.growMem]

theorem State.lt_placeWord_memLen (s : State) (nbits w : Nat) {a : Nat}
    (h : a ∈ s.placeOffsets (tableByte nbits w 0)) : a < (s.placeWord nbits w).cfg.memLen := by
  simp only [State.placeWord, State.putBytes_cfg, State.growMem]
  exact lt_max_of_lt_right ((foldl_max_succ_bounds _ 0).2 a h)

theorem State.placeWord_bytes (s : State) (nbits w : Nat) :
    (s.placeOffsets (tableByte nbits w 0)).map ((s.placeWord nbits w).byteAt .mem) = tableBytes nbits w := by
  obtain ⟨b, c, hoff⟩ := s.placeOffsets_cons (tableByte nbits w 0)
  exact State.map_byteAt_putBytes_zip (s.placeOffsets_nodup _) (by rw [hoff]; rfl)

theorem State.placeWord_opcode (s : State) (nbits w : Nat) :
    (s.placeWord nbits w).byteAt .mem (s.getReg .ip).toNat = tableByte nbits w 0 := by
  obtain ⟨b, c, hoff⟩ := s.placeOffsets_cons (tableByte nbits w 0)
  have hbytes := s.placeWord_bytes nbits w
  rw [hoff] at hbytes
  exact (List.cons.inj hbytes).1

/-- Settles O21: the loader leaves `ip` and the opcodes, so the next step reads the placed bytes, as many as the opcode
asks for, and they decode as the whole word does. -/
theorem placedWordRunsNext : Obligations.PlacedWordRunsNext := by
  intro s nbits w i rest hwf hd
  have hip : (s.placeWord nbits w).getReg .ip = s.getReg .ip := State.getReg_congr (s.placeWord_regfile nbits w) .ip
  have hoc := s.placeWord_opcodes nbits w
  have hoff : (s.placeWord nbits w).instrOffsets =
      (s.placeOffsets (tableByte nbits w 0)).take (dispatch s.cfg.opcodes (tableByte nbits w 0)).length := by
    rw [State.instrOffsets_eq_take, State.nextKind, hip, hoc, State.placeWord_opcode, State.placeOffsets_congr hip hoc]
  rw [State.withFetchWord, ← hip]
  refine step_of_decode rfl (s.placeWord_regfile nbits w ▸ hwf) (fun a ha => ?_) ?_
  · rw [hoff] at ha
    exact s.lt_placeWord_memLen nbits w (List.mem_of_mem_take ha)
  · rw [hoff, List.map_take, State.placeWord_bytes, hoc]
    exact decode_of_case (decode_cases hd).take

end Sys2Proof.Machine

/-! The literal moves (spec/41_mov_lit.md R130 to R132): the write of the literal, and the whole of a move from the
literal fetch on. Both moves are one argument over the register written, `r1` or `r2`. -/

namespace Sys2Proof.Machine

/-! ### The write of the literal -/

/-- A 16-bit value written to a register is read back as it is, and no other register, byte of memory or latch changes
(R22, R132). -/
theorem setReg_literal (s : State) (r : Reg) (imm : Word) :
    (s.setReg r imm.toNat).getReg r = imm ∧ OnlyRegs [r] s (s.setReg r imm.toNat) :=
  ⟨by rw [getReg_setReg_same, ofNat_toNat16], onlyRegs_setReg s r imm.toNat⟩

/-- Settles O12: after its fetch a literal move is one register write. -/
theorem literalMovesWriteTheirRegister : Obligations.LiteralMovesWriteTheirRegister := fun s imm =>
  ⟨⟨_, exec_movLitR1 imm s, setReg_literal s .r1 imm⟩, ⟨_, exec_movLitR2 imm s, setReg_literal s .r2 imm⟩⟩

/-! ### The whole move -/

/-- The state a literal move to `r` leaves when its literal fits: `ip` past the literal, then the literal in `r`. -/
def State.literalMoved (s : State) (r : Reg) : State :=
  (s.setReg .ip ((s.getReg .ip).toNat + 2)).setReg r (s.wordAt .mem (s.getReg .ip).toNat).toNat

/-- The error of a literal fetch that does not fit (R103, R130). -/
def State.literalError (s : State) : AccessInfo := ⟨.mem, (s.getReg .ip).toNat, .two⟩

/-- What R130 and R131 say of the state `t` in which a literal move to `r` begun in `s` ends. -/
def LiteralMoveEnds (r : Reg) (s t : State) : Prop :=
  ((s.getReg .ip).toNat + 2 ≤ s.cfg.memLen →
    t.getReg r = BitVec.ofNat 16 ((s.byteAt .mem (s.getReg .ip).toNat).toNat * 256 +
      (s.byteAt .mem ((s.getReg .ip).toNat + 1)).toNat) ∧
    t.getReg .ip = BitVec.ofNat 16 ((s.getReg .ip).toNat + 2) ∧ OnlyRegs [.ip, r] s t) ∧
  (s.cfg.memLen < (s.getReg .ip).toNat + 2 → Latched t s.literalError ∧ OnlyRegsAndLatch [] s t)

theorem literalMoveEnds_literalMoved {s : State} {r : Reg} (hr : r ≠ .ip)
    (fits : (s.getReg .ip).toNat + 2 ≤ s.cfg.memLen) : LiteralMoveEnds r s (s.literalMoved r) := by
  obtain ⟨hlit, hframe⟩ := setReg_literal (s.setReg .ip ((s.getReg .ip).toNat + 2)) r
    (s.wordAt .mem (s.getReg .ip).toNat)
  refine ⟨fun _ => ⟨?literal, ?ip, (onlyRegs_setReg s .ip _).trans hframe⟩, fun out => absurd out (Nat.not_lt.2 fits)⟩
  case literal => exact hlit.trans (State.wordAt_eq_bytes s .mem _)
  case ip => rw [State.literalMoved, getReg_setReg_ne _ _ hr.symm, getReg_setReg_same]

theorem literalMoveEnds_takeError {s : State} (r : Reg) (out : s.cfg.memLen < (s.getReg .ip).toNat + 2) :
    LiteralMoveEnds r s (s.takeError s.literalError) := by
  obtain ⟨hframe, hlatch⟩ := onlyLatch_takeError s s.literalError
  exact ⟨fun fits => absurd out (Nat.not_lt.2 fits), fun _ => ⟨hlatch, hframe⟩⟩

/-- An opcode that ends as a literal move to `r` in both of its cases meets the rule of that move. -/
theorem executeOpcode_literalMoveEnds {op : Byte} {s : State} {r : Reg} (hr : r ≠ .ip)
    (moved : (s.getReg .ip).toNat + 2 ≤ s.len .mem → ExecuteCase op s (s.getReg .ip).toNat (s.literalMoved r))
    (failed : s.len .mem < (s.getReg .ip).toNat + 2 →
      ExecuteCase op s (s.getReg .ip).toNat (s.takeError s.literalError)) :
    ∃ t, executeOpcode op s = .next t ∧ LiteralMoveEnds r s t := by
  rcases Nat.lt_or_ge s.cfg.memLen ((s.getReg .ip).toNat + 2) with out | fits
  · exact ⟨_, executeOpcode_of_case rfl (failed out), literalMoveEnds_takeError r out⟩
  · exact ⟨_, executeOpcode_of_case rfl (moved fits), literalMoveEnds_literalMoved hr fits⟩

/-- Settles O17: the opcode of `MOV_LIT_R1` always dispatches to the move to `r1`. -/
theorem movLitR1Executes : Obligations.MovLitR1Executes := fun _ =>
  executeOpcode_literalMoveEnds (by decide) (.movLitR1 (dispatch_movLitR1 _)) (.movLitR1Fault (dispatch_movLitR1 _))

/-- Settles O18: among distinct opcodes that of `MOV_LIT_R2` dispatches to the move to `r2`. -/
theorem movLitR2Executes : Obligations.MovLitR2Executes := fun _ hd =>
  executeOpcode_literalMoveEnds (by decide) (.movLitR2 (dispatch_movLitR2 hd)) (.movLitR2Fault (dispatch_movLitR2 hd))

end Sys2Proof.Machine

/-! The addition (spec/42_alu.md R140 to R142): its effect once both index bytes are known, and the whole instruction
from the index fetches on. -/

namespace Sys2Proof.Machine

/-! ### The effect after the index fetches -/

/-- The sum of two registers, written to `acc`, is cut mod 2^16 (R142). -/
theorem getReg_acc_setReg_aluSum (s : State) (x y : Word) :
    (s.setReg .acc (aluSum x y)).getReg .acc = BitVec.ofNat 16 ((x.toNat + y.toNat) % 65536) := by
  rw [getReg_setReg_same]
  exact BitVec.eq_of_toNat_eq (by simp [aluSum])

theorem aluSum_comm (x y : Word) : aluSum x y = aluSum y x := Nat.add_comm _ _

/-- Settles O13: with both indices in range the addition is one write, to `acc`. -/
theorem addWritesSumToAcc : Obligations.AddWritesSumToAcc := fun s _ _ _ _ ha hb =>
  ⟨_, exec_addRegReg_ok s ha hb, getReg_acc_setReg_aluSum s _ _, onlyRegs_setReg s .acc _⟩

/-- Settles O14: the first index out of range, in the order `ra`, `rb`, is the error taken. -/
theorem addWithBadIndexLatches : Obligations.AddWithBadIndexLatches := fun s _ rb =>
  ⟨fun ha => ⟨_, exec_addRegReg_ra s rb ha, (onlyLatch_takeError s _).symm⟩,
    fun ha hb => ⟨_, exec_addRegReg_rb s ha hb, (onlyLatch_takeError s _).symm⟩⟩

/-- With the first index in range the operands may be exchanged: the sum is the same, and so is the one error that a
bad second index raises in either place. -/
theorem exec_addRegReg_comm (s : State) {ra : Byte} (rb : Byte) (ha : ra.toNat < 10) :
    exec (.addRegReg ra rb) s = exec (.addRegReg rb ra) s := by
  rcases Nat.lt_or_ge rb.toNat 10 with hb | hb
  · obtain ⟨a, ha, -⟩ := Reg.exists_index ha
    obtain ⟨b, hb, -⟩ := Reg.exists_index hb
    rw [exec_addRegReg_ok s ha.symm hb.symm, exec_addRegReg_ok s hb.symm ha.symm, aluSum_comm]
  · rw [exec_addRegReg_rb s ha hb, exec_addRegReg_ra s ra hb]

/-- Settles O15: `exec_addRegReg_comm` from either side; with both indices out of range each order records its first. -/
theorem addIsCommutative : Obligations.AddIsCommutative := fun s ra rb =>
  ⟨fun h => h.elim (exec_addRegReg_comm s rb) fun hb => (exec_addRegReg_comm s ra hb).symm,
    fun ha hb => ⟨_, exec_addRegReg_ra s rb ha, exec_addRegReg_ra s ra hb⟩⟩

/-- Whether the addition completes or not, it writes no register but `acc`. -/
theorem exec_addRegReg_frame {s t : State} {ra rb : Byte} (h : exec (.addRegReg ra rb) s = .next t) :
    OnlyRegsAndLatch [.acc] s t := by
  rcases Nat.lt_or_ge ra.toNat 10 with ha | ha
  · rcases Nat.lt_or_ge rb.toNat 10 with hb | hb
    · obtain ⟨a, ha, -⟩ := Reg.exists_index ha
      obtain ⟨b, hb, -⟩ := Reg.exists_index hb
      cases (exec_addRegReg_ok s ha.symm hb.symm).symm.trans h
      exact (onlyRegs_setReg s .acc _).1
    · cases (exec_addRegReg_rb s ha hb).symm.trans h
      exact (onlyLatch_takeError s _).1.mono (List.nil_subset _)
  · cases (exec_addRegReg_ra s rb ha).symm.trans h
    exact (onlyLatch_takeError s _).1.mono (List.nil_subset _)

/-! ### The whole addition -/

/-- The state after both index fetches: `ip` has been advanced twice (R140, D4). -/
def State.indicesFetched (s : State) : State :=
  (s.setReg .ip ((s.getReg .ip).toNat + 1)).setReg .ip ((s.getReg .ip).toNat + 2)

theorem onlyRegs_indicesFetched (s : State) : OnlyRegs [.ip] s s.indicesFetched :=
  ((onlyRegs_setReg s .ip _).trans (onlyRegs_setReg _ .ip _)).mono (by simp)

theorem getReg_ip_indicesFetched (s : State) :
    s.indicesFetched.getReg .ip = BitVec.ofNat 16 ((s.getReg .ip).toNat + 2) :=
  getReg_setReg_same _ _ _

/-- After the index fetches a register reads as the operand R140 names. -/
theorem toNat_getReg_indicesFetched (s : State) (r : Reg) :
    (s.indicesFetched.getReg r).toNat = addOperand s (s.getReg .ip).toNat r := by
  obtain ⟨⟨-, -, hregs⟩, -⟩ := onlyRegs_indicesFetched s
  unfold addOperand
  split
  · next hr => rw [hr, getReg_ip_indicesFetched, BitVec.toNat_ofNat]
  · next hr => rw [hregs r (by simpa using hr)]

/-- With both index bytes in main memory, the handler is the addition of the registers they name, after the fetches. -/
theorem executeOpcode_addRegReg_fetched {op : Byte} {s : State} (k : dispatch s.cfg.opcodes op = .addRegReg)
    (fits : (s.getReg .ip).toNat < s.len .mem) (fits' : ((s.getReg .ip).toNat + 1) % 65536 < s.len .mem) :
    executeOpcode op s =
      exec (.addRegReg (s.byteAt .mem (s.getReg .ip).toNat) (s.byteAt .mem (((s.getReg .ip).toNat + 1) % 65536)))
        s.indicesFetched := by
  simp [executeOpcode, fetchOperands_addRegReg k, fetch8_eq s, fits, fetch8_eq (s.setReg _ _), fits', setReg_mod_add,
    State.indicesFetched]

/-- Settles O19: the two index fetches in order, then O13 and O14 at the state that the fetches leave. -/
theorem addRegRegExecutes : Obligations.AddRegRegExecutes := by
  rintro s _ _ _ _ hd rfl rfl rfl rfl
  have k := dispatch_addRegReg hd
  obtain ⟨t, ht, -⟩ := executeOpcode_total s.cfg.opcodes.addRegReg s
  refine ⟨t, ht, fun out => ?fetchRa, fun fits out => ?fetchRb, fun fits fits' => ?fetched⟩
  case fetchRa =>
    cases (executeOpcode_of_case rfl (.addFetchRa k out)).symm.trans ht
    exact (onlyLatch_takeError s _).symm
  case fetchRb =>
    cases (executeOpcode_of_case rfl (.addFetchRb k fits out)).symm.trans ht
    obtain ⟨hframe, hlatch⟩ := onlyLatch_takeError (s.setReg .ip _) _
    refine ⟨hlatch, ?_, (onlyRegs_setReg s .ip _).1.trans hframe⟩
    rw [State.takeError_getReg, getReg_setReg_same]
  case fetched =>
    have hexec := (executeOpcode_addRegReg_fetched k fits fits').symm.trans ht
    have hfetch := onlyRegs_indicesFetched s
    refine ⟨?ip, fun ha => ?readRa, fun ha hb => ?readRb, fun a b ha hb => ?sum⟩
    case ip =>
      obtain ⟨-, -, hregs⟩ := exec_addRegReg_frame hexec
      exact (hregs .ip (by decide)).trans (getReg_ip_indicesFetched s)
    case readRa =>
      obtain ⟨u, hu, hlatch, hframe⟩ := (addWithBadIndexLatches s.indicesFetched _ _).1 ha
      cases hu.symm.trans hexec
      exact ⟨hlatch, hfetch.1.trans hframe⟩
    case readRb =>
      obtain ⟨u, hu, hlatch, hframe⟩ := (addWithBadIndexLatches s.indicesFetched _ _).2 ha hb
      cases hu.symm.trans hexec
      exact ⟨hlatch, hfetch.1.trans hframe⟩
    case sum =>
      obtain ⟨u, hu, hacc, hframe⟩ := addWritesSumToAcc s.indicesFetched _ _ a b ha hb
      cases hu.symm.trans hexec
      rw [toNat_getReg_indicesFetched, toNat_getReg_indicesFetched] at hacc
      exact ⟨hacc, hfetch.trans hframe⟩

end Sys2Proof.Machine

/-! The exceptions (spec/60_exceptions.md R150 to R165): the access that a failing step fails and what it leaves in
`ip`, what a command of each kind answers, and the fault latch, which a core command sets and only `RESET` clears. -/

namespace Sys2Proof.Machine

/-! ### The access that fails -/

/-- The access reaches past the end of its store (R151). -/
def AccessInfo.OutOfRange (e : AccessInfo) (s : State) : Prop := s.len e.store < e.offset + e.width.bytes

/-- The ways an opcode of kind `k` fails when its handler begins with the address `n` in `ip`: the access recorded, and
how many operand bytes were fetched before it (R130, R131, R140). -/
inductive FailedOperand (memLen n : Nat) : (k : OpcodeKind) → (e : AccessInfo) → (fetched : Nat) → Prop where
  | literal {k : OpcodeKind} (hk : k = .movLitR1 ∨ k = .movLitR2) (out : memLen < n + 2) :
      FailedOperand memLen n k ⟨.mem, n, .two⟩ 0
  | firstIndex (out : memLen ≤ n) : FailedOperand memLen n .addRegReg ⟨.mem, n, .one⟩ 0
  | secondIndex (fits : n < memLen) (out : memLen ≤ (n + 1) % 65536) :
      FailedOperand memLen n .addRegReg ⟨.mem, (n + 1) % 65536, .one⟩ 1
  | register {i : Nat} (bad : 10 ≤ i) : FailedOperand memLen n .addRegReg ⟨.regfile, 2 * i, .two⟩ 2

section FailedOperand

variable {n fetched : Nat} {k : OpcodeKind} {e : AccessInfo}

theorem FailedOperand.outOfRange {s : State} (h : FailedOperand s.cfg.memLen n k e fetched) : e.OutOfRange s := by
  cases h with
  | literal _ out => exact out
  | firstIndex out | secondIndex _ out => exact Nat.lt_succ_of_le out
  | @register i bad => exact show 20 < 2 * i + 2 by omega

variable {memLen : Nat} (h : FailedOperand memLen n k e fetched)
include h

/-- A failing operand fetch is recorded at the address that the fetches before it left in `ip`. -/
theorem FailedOperand.offset_eq (hn : n < 65536) (hmem : e.store = .mem) : e.offset = (n + fetched) % 65536 := by
  cases h with
  | literal | firstIndex => exact (Nat.mod_eq_of_lt hn).symm
  | secondIndex => rfl
  | register => cases hmem

theorem FailedOperand.eq_literal (hk : k ≠ .addRegReg) : e.store = .mem ∧ e.width = .two ∧ fetched = 0 := by
  cases h with
  | literal => exact ⟨rfl, rfl, rfl⟩
  | firstIndex | secondIndex | register => exact absurd rfl hk

theorem FailedOperand.eq_index (hk : k = .addRegReg) (hmem : e.store = .mem) :
    e.width = .one ∧ (fetched = 0 ∨ fetched = 1 ∧ n < memLen) := by
  cases h with
  | literal hlit => simp [hk] at hlit
  | firstIndex => exact ⟨rfl, .inl rfl⟩
  | secondIndex fits => exact ⟨rfl, .inr ⟨rfl, fits⟩⟩
  | register => cases hmem

theorem FailedOperand.eq_register (hreg : e.store = .regfile) : e.width = .two ∧ fetched = 2 := by
  cases h with
  | literal | firstIndex | secondIndex => cases hreg
  | register => exact ⟨rfl, rfl⟩

end FailedOperand

theorem OnlyRegs.refl (rs : List Reg) (s : State) : OnlyRegs rs s s := ⟨⟨rfl, fun _ => rfl, fun _ _ => rfl⟩, .refl s⟩

theorem OnlyRegs.trans_same {rs : List Reg} {s t u : State} (h : OnlyRegs rs s t) (h' : OnlyRegs rs t u) :
    OnlyRegs rs s u :=
  (h.trans h').mono (by simp)

/-- An execution that raises an error has only advanced `ip`, past the operand bytes it fetched, when it takes it. -/
theorem ExecuteCase.failed {op : Byte} {s t : State} {n : Nat} (hc : ExecuteCase op s n t) (hrun : s.halted = false)
    (hhalt : t.halted = true) (hip : s.getReg .ip = BitVec.ofNat 16 n) :
    ∃ e fetched u, FailedOperand s.cfg.memLen n (dispatch s.cfg.opcodes op) e fetched ∧ t = u.takeError e ∧
      OnlyRegs [.ip] s u ∧ u.getReg .ip = BitVec.ofNat 16 (n + fetched) := by
  cases hc with
  | movLitR1Fault k out | movLitR2Fault k out => exact ⟨_, 0, s, .literal (by simp [k]) out, rfl, .refl _ s, hip⟩
  | addFetchRa k out => exact ⟨_, 0, s, k ▸ .firstIndex out, rfl, .refl _ s, hip⟩
  | addFetchRb k fits out =>
    exact ⟨_, 1, _, k ▸ .secondIndex fits out, rfl, onlyRegs_setReg _ _ _, getReg_setReg_same _ _ _⟩
  | addReadRa k _ _ bad | addReadRb k _ _ _ bad =>
    rw [setReg_mod_add]
    exact ⟨_, 2, _, k ▸ .register bad, rfl, (onlyRegs_setReg _ _ _).trans_same (onlyRegs_setReg _ _ _),
      getReg_setReg_same _ _ _⟩
  | movLitR1 | movLitR2 | add | unrecognized => simp [hrun] at hhalt

/-- A step that raises an error fails its opcode fetch, or fetches the opcode and fails an access of its handler. -/
theorem step_failed {s t : State} (hs : step s = .next t) (hhalt : t.halted = true) :
    (s.cfg.memLen ≤ (s.getReg .ip).toNat ∧ t = s.takeError ⟨.mem, (s.getReg .ip).toNat, .one⟩) ∨
      ((s.getReg .ip).toNat < s.cfg.memLen ∧ ∃ e fetched u,
        FailedOperand s.cfg.memLen (((s.getReg .ip).toNat + 1) % 65536) s.nextKind e fetched ∧ t = u.takeError e ∧
        OnlyRegs [.ip] s u ∧ u.getReg .ip = BitVec.ofNat 16 ((s.getReg .ip).toNat + (fetched + 1))) := by
  obtain ⟨hrun, hopcode | ⟨fits, hc⟩⟩ := step_cases hs
  · exact .inl hopcode
  · have hip : (s.setReg .ip ((s.getReg .ip).toNat + 1)).getReg .ip =
        BitVec.ofNat 16 (((s.getReg .ip).toNat + 1) % 65536) := by
      rw [getReg_setReg_same]
      exact BitVec.eq_of_toNat_eq (by simp)
    obtain ⟨e, fetched, u, hf, ht, hframe, hu⟩ := hc.failed (by simpa using hrun) hhalt hip
    rw [State.setReg_cfg] at hf
    refine .inr ⟨fits, e, fetched, u, hf, ht, (onlyRegs_setReg s .ip _).trans_same hframe, hu.trans ?_⟩
    apply BitVec.eq_of_toNat_eq
    simp only [BitVec.toNat_ofNat]
    omega

/-- Settles O25: the failing access is the opcode's, 0 bytes on, or one of the handler's, which begins 1 byte on. -/
theorem failedStepLeavesOnlyFetchAdvance : Obligations.FailedStepLeavesOnlyFetchAdvance := by
  intro s t hs hhalt
  obtain ⟨out, rfl⟩ | ⟨fits, e, fetched, u, hf, rfl, hframe, hip⟩ := step_failed hs hhalt
  · obtain ⟨hframe, hlatch⟩ := onlyLatch_takeError s ⟨.mem, (s.getReg .ip).toNat, .one⟩
    exact ⟨_, 0, hlatch, hframe.mono (List.nil_subset _), (ofNat_toNat16 _).symm, Nat.lt_succ_of_le out,
      fun _ => (Nat.mod_eq_of_lt (s.getReg .ip).isLt).symm, fun _ => ⟨rfl, rfl, rfl⟩,
      fun fits => absurd fits (Nat.not_lt.2 out)⟩
  · obtain ⟨hlatchFrame, hlatch⟩ := onlyLatch_takeError u e
    refine ⟨e, fetched + 1, hlatch, hframe.1.trans hlatchFrame, hip, hf.outOfRange, fun hmem => ?offset,
      fun out => absurd fits (Nat.not_lt.2 out), fun _ => ⟨fun hk => ?literal, fun hk => ⟨fun hmem => ?index,
        fun hreg => ?register⟩⟩⟩
    case offset =>
      rw [hf.offset_eq (Nat.mod_lt _ (by decide)) hmem]
      omega
    case literal => simpa using hf.eq_literal hk
    case index => simpa using hf.eq_index hk hmem
    case register => simpa using hf.eq_register hreg

/-! ### What a core command answers -/

/-- What a core command issued in `s` can leave and answer: its refusal by a halted core (R101), or, from a running one,
an answer with the latch as it was, or the error of an access out of range, which is also latched (R156). -/
inductive CoreAnswer (s : State) : State → Response → Prop where
  | refused (halted : s.halted = true) : CoreAnswer s s (.err (.coreHalted s.fault))
  | completed {t : State} {r : Response} (running : s.halted = false) (latch : SameLatch s t)
      (noError : ∀ e, r ≠ .err e) : CoreAnswer s t r
  | failed {t : State} {e : AccessInfo} (running : s.halted = false) (out : e.OutOfRange s) (latched : Latched t e) :
      CoreAnswer s t (.err (.outOfBounds e))

/-- A command that ran an opcode answers what the latch says (R105, R156). -/
theorem coreAnswer_endResponse {s t : State} (hrun : s.halted = false)
    (h : SameLatch s t ∨ ∃ e : AccessInfo, e.OutOfRange s ∧ Latched t e) : CoreAnswer s t t.endResponse := by
  obtain hsame | ⟨e, hout, hlatch⟩ := h
  · rw [endResponse_running (hsame.1.trans hrun)]
    exact .completed hrun hsame nofun
  · rw [endResponse_latched hlatch]
    exact .failed hrun hout hlatch

theorem step_sameLatch_or_failed {s t : State} (hs : step s = .next t) :
    SameLatch s t ∨ ∃ e : AccessInfo, e.OutOfRange s ∧ Latched t e := by
  refine (step_sameLatch_or_latched hs).imp_right fun ⟨_, hhalt, _⟩ => ?_
  obtain ⟨out, rfl⟩ | ⟨-, e, _, u, hf, rfl, -⟩ := step_failed hs hhalt
  · exact ⟨⟨.mem, (s.getReg .ip).toNat, .one⟩, Nat.lt_succ_of_le out, latched_takeError _ _⟩
  · exact ⟨e, hf.outOfRange, latched_takeError u e⟩

theorem executeOpcode_sameLatch_or_failed {op : Byte} {s t : State} (hrun : s.halted = false)
    (hx : executeOpcode op s = .next t) : SameLatch s t ∨ ∃ e : AccessInfo, e.OutOfRange s ∧ Latched t e := by
  have hc := executeOpcode_cases hx
  refine hc.sameLatch_or_latched.imp_right fun ⟨_, hhalt, _⟩ => ?_
  obtain ⟨e, _, u, hf, rfl, -⟩ := hc.failed hrun hhalt (ofNat_toNat16 _).symm
  exact ⟨e, hf.outOfRange, latched_takeError u e⟩

theorem perform_core {c : Command} {s t : State} {r : Response} (k : c.kind = .core)
    (h : perform c s = .next (t, r)) : CoreAnswer s t r := by
  cases c with
  | step =>
    obtain ⟨hh, rfl, rfl⟩ | ⟨hrun, hs, rfl⟩ := perform_step_cases h
    · exact .refused hh
    · exact coreAnswer_endResponse hrun (step_sameLatch_or_failed hs)
  | exec op =>
    obtain ⟨hh, rfl, rfl⟩ | ⟨hrun, hx, rfl⟩ := perform_exec_cases h
    · exact .refused hh
    · exact coreAnswer_endResponse hrun (executeOpcode_sameLatch_or_failed hrun hx)
  | fetch8 =>
    obtain ⟨hh, rfl, rfl⟩ | ⟨hrun, out, rfl, rfl⟩ | ⟨hrun, -, rfl, rfl⟩ := perform_fetch8_cases h
    · exact .refused hh
    · exact .failed hrun (Nat.lt_succ_of_le out) (latched_takeError _ _)
    · exact .completed hrun (sameLatch_setReg _ _ _) nofun
  | fetch16 =>
    obtain ⟨hh, rfl, rfl⟩ | ⟨hrun, out, rfl, rfl⟩ | ⟨hrun, -, rfl, rfl⟩ := perform_fetch16_cases h
    · exact .refused hh
    · exact .failed hrun out (latched_takeError _ _)
    · exact .completed hrun (sameLatch_setReg _ _ _) nofun
  | getReg | setReg | memRead8 | memRead16 | memWrite8 | memWrite16 | debug | reset => cases k

/-! ### What a host-port command answers -/

/-- What a host-port command issued in `s` can leave and answer: it is served and leaves the latch, or it is an access
to main memory out of range (R63) or a select of no register (R40, R41) and leaves the state. -/
inductive PortAnswer (c : Command) (s : State) : State → Response → Prop where
  | served {t : State} {r : Response} (latch : SameLatch s t) (noError : ∀ e, r ≠ .err e) : PortAnswer c s t r
  | outOfRange {off : Nat} {w : Width} (out : s.cfg.memLen < off + w.bytes) :
      PortAnswer c s s (.err (.outOfBounds ⟨.mem, off, w⟩))
  | unknownRegister {sel : Nat} (unknown : 10 ≤ sel) (select : c = .getReg sel ∨ ∃ v, c = .setReg sel v) :
      PortAnswer c s s (.err (.unknownRegister sel))

/-- A command that is served when its main-memory access is in range and refused with that access when it is not. -/
theorem portAnswer_of_bounds {c : Command} {s t u : State} {r r' : Response} (off : Nat) (w : Width)
    (served : off + w.bytes ≤ s.cfg.memLen → perform c s = .next (u, r'))
    (refused : s.cfg.memLen < off + w.bytes → perform c s = .next (s, .err (.outOfBounds ⟨.mem, off, w⟩)))
    (latch : SameLatch s u) (noError : ∀ e, r' ≠ .err e) (h : perform c s = .next (t, r)) : PortAnswer c s t r := by
  rcases Nat.lt_or_ge s.cfg.memLen (off + w.bytes) with out | fits
  · cases (refused out).symm.trans h
    exact .outOfRange out
  · cases (served fits).symm.trans h
    exact .served latch noError

theorem performGetReg_answer {sel : Nat} {s t : State} {r : Response} (h : performGetReg sel s = .next (t, r)) :
    PortAnswer (.getReg sel) s t r := by
  rcases Nat.lt_or_ge sel 10 with hsel | hsel
  · obtain ⟨reg, rfl, -⟩ := Reg.exists_index hsel
    cases (performGetReg_index reg s).symm.trans h
    exact .served (.refl s) nofun
  · cases (performGetReg_unknown hsel s).symm.trans h
    exact .unknownRegister hsel (.inl rfl)

theorem performSetReg_answer {sel v : Nat} {s t : State} {r : Response} (h : performSetReg sel v s = .next (t, r)) :
    PortAnswer (.setReg sel v) s t r := by
  rcases Nat.lt_or_ge sel 10 with hsel | hsel
  · obtain ⟨reg, rfl, -⟩ := Reg.exists_index hsel
    cases (performSetReg_index reg v s).symm.trans h
    exact .served (sameLatch_setReg s reg v) nofun
  · cases (performSetReg_unknown hsel v s).symm.trans h
    exact .unknownRegister hsel (.inr ⟨v, rfl⟩)

theorem perform_hostPort {c : Command} {s t : State} {r : Response} (k : c.kind = .hostPort)
    (h : perform c s = .next (t, r)) : PortAnswer c s t r := by
  cases c with
  | getReg sel => exact performGetReg_answer h
  | setReg sel v => exact performSetReg_answer h
  | memRead8 a =>
    exact portAnswer_of_bounds a .one perform_memRead8_ok
      (fun out => perform_memRead8_error (Nat.le_of_lt_succ out)) (.refl s) nofun h
  | memRead16 a => exact portAnswer_of_bounds a .two perform_memRead16_ok perform_memRead16_error (.refl s) nofun h
  | memWrite8 a v =>
    exact portAnswer_of_bounds a .one (perform_memWrite8_ok v)
      (fun out => perform_memWrite8_error v (Nat.le_of_lt_succ out)) ⟨s.putByte_halted _ _ _, s.putByte_fault _ _ _⟩
      nofun h
  | memWrite16 a v =>
    exact portAnswer_of_bounds a .two (perform_memWrite16_ok v) (perform_memWrite16_error v)
      ⟨s.putWord_halted _ _ _, s.putWord_fault _ _ _⟩ nofun h
  | debug =>
    cases h
    exact .served (.refl s) nofun
  | step | exec | fetch8 | fetch16 | reset => cases k

theorem PortAnswer.sameLatch {c : Command} {s t : State} {r : Response} (h : PortAnswer c s t r) : SameLatch s t := by
  cases h with
  | served latch => exact latch
  | outOfRange | unknownRegister => exact .refl s

theorem PortAnswer.ne_coreHalted {c : Command} {s t : State} {r : Response} (h : PortAnswer c s t r)
    (x : Option FaultRecord) : r ≠ .err (.coreHalted x) := by
  cases h with
  | served _ noError => exact noError _
  | outOfRange | unknownRegister => exact nofun

/-- Settles O42: the answer lists the registers as `Reg.all` does. -/
theorem debugShowsTheRegistersInOrder : Obligations.DebugShowsTheRegistersInOrder := fun _ => rfl

/-! ### The fault latch -/

theorem kind_eq_reset {c : Command} (k : c.kind = .reset) : c = .reset := by
  cases c with
  | reset => rfl
  | step | exec | fetch8 | fetch16 | getReg | setReg | memRead8 | memRead16 | memWrite8 | memWrite16 | debug => cases k

theorem perform_core_halted {c : Command} {s : State} (k : c.kind = .core) (hh : s.halted = true) :
    perform c s = .next (s, .err (.coreHalted s.fault)) := by
  obtain ⟨t, r, h⟩ := perform_answered c s
  cases perform_core k h with
  | refused => exact h
  | completed hrun | failed hrun =>
    rw [hh] at hrun
    cases hrun

/-- Settles O43, kind by kind. -/
theorem haltedCoreServesOnlyTheHostPorts : Obligations.HaltedCoreServesOnlyTheHostPorts := by
  refine fun s c hh => ⟨fun k => perform_core_halted k hh, fun k => ?hostPort, fun k => ?reset⟩
  case hostPort =>
    obtain ⟨t, r, h⟩ := perform_answered c s
    have hport := perform_hostPort k h
    exact ⟨t, r, h, hport.sameLatch, hport.ne_coreHalted⟩
  case reset =>
    cases kind_eq_reset k
    exact ⟨_, _, rfl, s.resetCore_halted, s.resetCore_fault⟩

/-- On a halted core every command but `RESET` leaves the latch and its record (R157, R162). -/
theorem perform_sameLatch_of_halted {c : Command} {s t : State} {r : Response} (hh : s.halted = true)
    (h : perform c s = .next (t, r)) (hc : c ≠ .reset) : SameLatch s t := by
  cases k : c.kind with
  | core =>
    cases (perform_core_halted k hh).symm.trans h
    exact .refl s
  | hostPort => exact (perform_hostPort k h).sameLatch
  | reset => exact absurd (kind_eq_reset k) hc

/-- A run that is answered is its first command's answer, then a run from the state that command leaves. -/
theorem performAll_cons_inv {c : Command} {cs : List Command} {s u : State} {rs : List Response}
    (h : performAll (c :: cs) s = .next (u, rs)) :
    ∃ t r rs', perform c s = .next (t, r) ∧ performAll cs t = .next (u, rs') := by
  obtain ⟨t, r, hc⟩ := perform_answered c s
  simp only [performAll, hc] at h
  split at h
  · next hcs =>
    cases h
    exact ⟨t, r, _, hc, hcs⟩
  · cases h
  · cases h

/-- Settles O44, by induction on the commands. -/
theorem onlyResetLeavesTheHaltedState : Obligations.OnlyResetLeavesTheHaltedState := by
  intro cs
  induction cs with
  | nil =>
    intro s t rs hh h _
    cases h
    exact ⟨hh, rfl⟩
  | cons c cs ih =>
    intro s u rs hh h hreset
    rw [List.mem_cons, not_or] at hreset
    obtain ⟨t, r, rs', hc, hcs⟩ := performAll_cons_inv h
    obtain ⟨hhalted, hfault⟩ := perform_sameLatch_of_halted hh hc (Ne.symm hreset.1)
    obtain ⟨hu, hrecord⟩ := ih t u rs' (hhalted.trans hh) hcs hreset.2
    exact ⟨hu, hrecord.trans hfault⟩

/-- Settles O45: a running core completes the command or latches the error it answers, and no port reaches the latch. -/
theorem errorsLatchExactlyInCoreCommands : Obligations.ErrorsLatchExactlyInCoreCommands := by
  refine fun c s t r hrun h => ⟨fun k => ?_, fun k => (perform_hostPort k h).sameLatch⟩
  cases perform_core k h with
  | refused hh =>
    rw [hrun] at hh
    cases hh
  | completed _ latch noError => exact .inl ⟨latch, noError⟩
  | failed _ _ latched => exact .inr ⟨_, rfl, latched⟩

/-! ### Which command answers which error -/

/-- What each error says of the command `c`, issued in `s` and ended in `t`, that answers it (R151 to R153, R157). -/
def ErrorAnswer (c : Command) (s t : State) : Error → Prop
  | .outOfBounds e => e.OutOfRange s ∧ (e.store = .regfile → c.kind = .core)
  | .unknownRegister sel => t = s ∧ 10 ≤ sel ∧ (c = .getReg sel ∨ ∃ v, c = .setReg sel v)
  | .coreHalted record => t = s ∧ c.kind = .core ∧ s.halted = true ∧ record = s.fault
  | .allocation => False

theorem perform_error {c : Command} {s t : State} {e : Error} (h : perform c s = .next (t, .err e)) :
    ErrorAnswer c s t e := by
  cases k : c.kind with
  | core =>
    cases perform_core k h with
    | refused hh => exact ⟨rfl, k, hh, rfl⟩
    | completed _ _ noError => exact absurd rfl (noError e)
    | failed _ out _ => exact ⟨out, fun _ => k⟩
  | hostPort =>
    cases perform_hostPort k h with
    | served _ noError => exact absurd rfl (noError e)
    | outOfRange out => exact ⟨out, nofun⟩
    | unknownRegister unknown select => exact ⟨rfl, unknown, select⟩
  | reset =>
    cases kind_eq_reset k
    cases h

/-- Settles O46: `perform_error`, and the two commands' answers to a select of no register. -/
theorem unknownRegisterComesOnlyFromTheRegisterPort : Obligations.UnknownRegisterComesOnlyFromTheRegisterPort := by
  refine fun c s t n => ⟨perform_error, ?_⟩
  rintro ⟨rfl, hn, rfl | ⟨v, rfl⟩⟩
  · exact performGetReg_unknown hn t
  · exact performSetReg_unknown hn v t

/-- Settles O47: `perform_error` at the two kinds of error. -/
theorem outOfBoundsAnswersAreGenuine : Obligations.OutOfBoundsAnswersAreGenuine :=
  fun _ _ _ => ⟨perform_error, fun _ => perform_error⟩

end Sys2Proof.Machine

/-! Reset and hazards (spec/70_reset_and_hazards.md R181 to R184): what `RESET` clears and keeps, the loading of an
image through the memory port, and the run of a machine whose memory is all 0. -/

namespace Sys2Proof.Machine

/-! ### Reset -/

/-- Settles O3: the registers and the latch are what `resetCore` writes; main memory and the configuration are not. -/
theorem resetClearsRegistersAndLatch : Obligations.ResetClearsRegistersAndLatch := fun s =>
  ⟨s.resetCore, rfl, getReg_resetCore s, s.resetCore_halted, s.resetCore_fault,
    State.byteAt_mem_congr s.resetCore_mem, s.resetCore_cfg⟩

/-! ### Loading an image -/

theorem sameLatch_putBytes (s : State) (cells : List (Nat × Byte)) : SameLatch s (s.putBytes cells) := by
  induction cells generalizing s with
  | nil => exact .refl s
  | cons c cells ih => exact SameLatch.trans ⟨s.putByte_halted .mem _ _, s.putByte_fault .mem _ _⟩ (ih _)

/-- The load commands of an image inside main memory are all answered `OK`, and together write its bytes (R183). -/
theorem performAll_loadCommands {s : State} {image : List Host.Cell} (fits : ∀ c ∈ image, c.1 < s.cfg.memLen) :
    performAll (loadCommands image) s = .next (s.putBytes image, List.replicate image.length .ok) := by
  induction image generalizing s with
  | nil => rfl
  | cons c image ih =>
    obtain ⟨fitsHead, fitsTail⟩ := List.forall_mem_cons.1 fits
    exact performAll_cons (perform_memWrite8_ok c.2 fitsHead) (ih (by simpa using fitsTail))

/-- Placed bytes stand at consecutive offsets. -/
theorem placeAt_eq_zip (pos : Nat) (bytes : List Byte) :
    placeAt pos bytes = (List.range' pos bytes.length).zip bytes := by
  induction bytes generalizing pos with
  | nil => rfl
  | cons b bytes ih => simp [placeAt, ih, List.range'_succ]

theorem map_fst_placeAt (pos : Nat) (bytes : List Byte) :
    (placeAt pos bytes).map Prod.fst = List.range' pos bytes.length := by
  rw [placeAt_eq_zip, List.map_fst_zip (by simp)]

theorem byteAt_putBytes_placeAt (s : State) (pos : Nat) {bytes : List Byte} {k : Nat} (h : k < bytes.length) :
    (s.putBytes (placeAt pos bytes)).byteAt .mem (pos + k) = bytes[k] := by
  have hread := State.map_byteAt_putBytes_zip (s := s) (offsets := List.range' pos bytes.length) (bytes := bytes)
    List.nodup_range' (by simp)
  rw [← placeAt_eq_zip pos] at hread
  have hk := List.map_eq_iff.1 hread k
  simpa [h] using hk.symm

theorem byteAt_putBytes_placeAt_outside (s : State) {pos a : Nat} {bytes : List Byte}
    (h : a < pos ∨ pos + bytes.length ≤ a) :
    (s.putBytes (placeAt pos bytes)).byteAt .mem a = s.byteAt .mem a := by
  apply State.byteAt_putBytes_of_notMem
  rw [map_fst_placeAt, List.mem_range'_1]
  omega

/-- Settles O41: the load commands write the placed bytes, which stand at consecutive offsets. -/
theorem loadingPlacesEveryByte : Obligations.LoadingPlacesEveryByte := by
  intro s pos bytes fits
  have inside : ∀ c ∈ placeAt pos bytes, c.1 < s.cfg.memLen := by
    intro c hc
    have hoff : c.1 ∈ List.range' pos bytes.length := map_fst_placeAt pos bytes ▸ List.mem_map_of_mem hc
    rw [List.mem_range'_1] at hoff
    omega
  exact ⟨_, _, performAll_loadCommands inside, fun _ => List.eq_of_mem_replicate,
    fun _ => byteAt_putBytes_placeAt s pos, fun _ => byteAt_putBytes_placeAt_outside s,
    s.putBytes_cfg _, s.putBytes_regfile _, sameLatch_putBytes s _⟩

/-! ### Zero-filled memory -/

/-- A running core whose main memory is all 0, where 0 is no opcode parameter: every opcode it can fetch is a one-byte
no-op (R184). -/
structure State.ZeroFilled (s : State) : Prop where
  running : s.halted = false
  zero : ∀ a, s.byteAt .mem a = 0
  noOp : s.cfg.opcodes.Unrecognized 0

theorem State.ZeroFilled.of_onlyRegs {s t : State} {rs : List Reg} (hz : s.ZeroFilled) (h : OnlyRegs rs s t) :
    t.ZeroFilled := by
  obtain ⟨⟨hcfg, hmem, -⟩, hhalted, -⟩ := h
  exact ⟨hhalted.trans hz.running, fun a => (hmem a).trans (hz.zero a), hcfg ▸ hz.noOp⟩

theorem State.ZeroFilled.step_eq {s : State} (hz : s.ZeroFilled) (fits : (s.getReg .ip).toNat < s.cfg.memLen) :
    step s = .next (s.setReg .ip ((s.getReg .ip).toNat + 1)) := by
  rw [step_fetched hz.running fits, hz.zero]
  exact executeOpcode_unrecognized (by simpa using hz.noOp)

/-- A run from `s` whose first step goes on is that step, then a run from the state it leaves. -/
theorem run_succ_of_step {M : Host.Core} {s t : M.State} (h : M.step s = .next t) (n : Nat) :
    M.run (n + 1) s = M.run n t := by
  rw [Host.Core.run, h]

/-- Zero-filled memory runs as no-ops for as long as `ip`, which wraps, addresses a byte of it (R184, R30). -/
theorem State.ZeroFilled.exists_run {s : State} (hz : s.ZeroFilled) {n : Nat}
    (fits : ∀ k < n, ((s.getReg .ip).toNat + k) % 65536 < s.cfg.memLen) :
    ∃ t, Host.Core.run core n s = .next t ∧ (t.getReg .ip).toNat = ((s.getReg .ip).toNat + n) % 65536 ∧
      OnlyRegs [.ip] s t := by
  induction n generalizing s with
  | zero => exact ⟨s, rfl, (Nat.mod_eq_of_lt (s.getReg .ip).isLt).symm, .refl _ s⟩
  | succ n ih =>
    have fitsNow : (s.getReg .ip).toNat < s.cfg.memLen := by
      simpa [Nat.mod_eq_of_lt (s.getReg .ip).isLt] using fits 0 (by omega)
    have hnext := onlyRegs_setReg s .ip ((s.getReg .ip).toNat + 1)
    have fitsLater : ∀ k < n, (((s.getReg .ip).toNat + 1) % 65536 + k) % 65536 < s.cfg.memLen := by
      intro k hk
      rw [Nat.mod_add_mod, Nat.add_right_comm]
      exact fits (k + 1) (by omega)
    obtain ⟨t, hrun, hip, hframe⟩ :=
      ih (hz.of_onlyRegs hnext) (by simpa only [ip_setReg, State.setReg_cfg] using fitsLater)
    refine ⟨t, (run_succ_of_step (M := core) (hz.step_eq fitsNow) n).trans hrun, ?_, hnext.trans_same hframe⟩
    rw [hip, ip_setReg, Nat.mod_add_mod, Nat.add_right_comm, Nat.add_assoc]

/-- Settles O29: as many no-ops as there are bytes from `ip` to the end of its reach, then the opcode fetch that fails
at `MEM_LEN`, or the wrap. -/
theorem zeroFilledMemoryRunsAsNoOps : Obligations.ZeroFilledMemoryRunsAsNoOps := by
  refine fun s hrun hzero hop => ⟨fun hlen hip => ?faults, fun hlen => ?wraps⟩
  case faults =>
    obtain ⟨t, ht, htip, hframe⟩ := State.ZeroFilled.exists_run ⟨hrun, hzero, hop⟩
      (n := s.cfg.memLen - (s.getReg .ip).toNat) (fun k hk => by omega)
    have hend : (t.getReg .ip).toNat = s.cfg.memLen := by omega
    have ⟨⟨hcfg, _⟩, hhalted, _⟩ := hframe
    have out : t.len .mem ≤ (t.getReg .ip).toNat := by
      rw [hend, State.len_congr hcfg]
      exact Nat.le_refl _
    obtain ⟨hlast, hlatch⟩ := onlyLatch_takeError t ⟨.mem, s.cfg.memLen, .one⟩
    exact ⟨t, _, ht, hend, hframe, hend ▸ step_fetch_error (hhalted.trans hrun) out, hlatch, hlast⟩
  case wraps =>
    obtain ⟨t, ht, htip, hframe⟩ := State.ZeroFilled.exists_run ⟨hrun, hzero, hop⟩
      (n := 65536 - (s.getReg .ip).toNat) (fun k hk => by omega)
    have hlt : (s.getReg .ip).toNat < 65536 := (s.getReg .ip).isLt
    exact ⟨t, ht, BitVec.eq_of_toNat_eq (htip.trans (show _ % 65536 = 0 by omega)), hframe⟩

end Sys2Proof.Machine
